-- ==== Sys2Proof/Word.lean ====
section
/-! DEFINITION. The word types of DDFB (00_scope.md R8, R10; 10_state.md R20). -/

namespace Sys2Proof

/-- A register value, an address or an instruction word: `XLEN = ILEN = 32` (R8). -/
abbrev Word := BitVec 32

/-- One byte of memory or of the output stream (R40, R32). -/
abbrev Byte := BitVec 8

/-- The 16-bit `imm` field of an instruction word (R71). -/
abbrev Half := BitVec 16

/-- A register index, always in `[0, 31]` (R8, R20, R91). -/
abbrev Reg := Fin 32

end Sys2Proof
end

