-- ==== Sys2Proof/Machine/Operands.lean ====
section
/-! DEFINITION. Readings of patterns, integer helpers and the operand types of the resolver
(00_scope.md R10 to R12; 30_encoding.md R92 to R95; 41_control_transfer.md R141). -/

namespace Sys2Proof.Machine

open Sys2Proof

/-- `s32(v)`: the signed reading of a pattern (R10). -/
def s32 (v : Word) : Int := v.toInt

/-- `u32(v)`: the unsigned reading of a pattern (R10). -/
def u32 (v : Word) : Nat := v.toNat

/-- `wrap32(n)`: the pattern `n mod 2^32`, floored (R10). -/
def wrap32 (n : Int) : Word := BitVec.ofInt 32 n

/-- `tdiv(a, b)`: division truncating toward zero (R12). -/
def tdiv (a b : Int) : Int := Int.tdiv a b

/-- `fmod(a, n)` for `n > 0`: the floored modulo, in `[0, n)` (R12, 90_conflicts.md C2). -/
def fmod (a n : Int) : Int := Int.fmod a n

/-- `sext_32(v)` (R11). -/
def sext32 (v : Half) : Word := v.signExtend 32

/-- `zext_32(v)` (R11). -/
def zext32 (v : Half) : Word := v.zeroExtend 32

/-- `SIMM`: the sign-extended immediate (R92). -/
def simm (imm : Half) : Word := sext32 imm

/-- `UIMM`: the zero-extended immediate (R93). -/
def uimm (imm : Half) : Word := zext32 imm

/-- `BOFF`: the branch target, from the branch's own address and its 16-bit field (R94, R141). -/
def branchTarget (pc : Word) (imm : Half) : Word :=
  wrap32 (u32 pc + 4 + 4 * s32 (sext32 imm))

/-- `LREF` as the 32-bit `info` of a failure: the reference zero-extended (R95, R200). -/
def refInfo (ref : Half) : Word := zext32 ref

/-- Byte `i` of a word in little-endian order, `v[8*i+7 : 8*i]` (R43, R44). -/
def byteOf (v : Word) (i : Nat) : Byte := v.extractLsb' (8 * i) 8

end Sys2Proof.Machine
end

