-- ==== Sys2Proof/Machine/Flags.lean ====
section
/-! DEFINITION. DDFB has no flags (10_state.md R25): what other machines do with flags it does by comparing signed
readings directly (40_arith_logic.md R111 (b)). These are its conditions. -/

namespace Sys2Proof.Machine

open Sys2Proof

/-- `s32(v) > 0`: the condition of SGNC, DRAIN and BPOS (R120, R123, R142). -/
def isPositive (v : Word) : Bool := decide (0 < s32 v)

/-- `s32(v) < 0`: the condition of BNEG (R143). -/
def isNegative (v : Word) : Bool := decide (s32 v < 0)

/-- The condition of BEQ, on patterns (R144). -/
def isEqual (v w : Word) : Bool := v == w

/-- The three-way comparison of signed readings: -1, 1 or 0 (R117). -/
def threeWay (a b : Int) : Int :=
  if a < b then -1 else if a > b then 1 else 0

end Sys2Proof.Machine
end

