-- ==== Sys2Proof/Config.lean ====
section
/-! DEFINITION. The fixed constants of 00_scope.md R8, the configuration of R9 with its defaults, and the platform
a run is launched on (10_state.md R35, R36): constant during a run, plain data, quantified over by every claim. -/

namespace Sys2Proof

/-- `FB_WIDTH` (R8). -/
def fbWidth : Nat := 512
/-- `FB_HEIGHT` (R8). -/
def fbHeight : Nat := 512
/-- `FB_PIXEL_BYTES` (R8). -/
def fbPixelBytes : Nat := 4
/-- The framebuffer's size in bytes, `0x100000 = 512 * 512 * 4` (R41). -/
def fbBytes : Nat := fbWidth * fbHeight * fbPixelBytes
/-- `BANK_LEN` (R8). -/
def bankLen : Nat := 8
/-- `CLAMP_LO` (R8). -/
def clampLo : Int := -100
/-- `CLAMP_HI` (R8). -/
def clampHi : Int := 100
/-- `MODN` (R8). -/
def modN : Int := 101
/-- `MODN_BIAS` (R8). -/
def modNBias : Int := 50
/-- The number of byte addresses, `2^32` (R40). -/
def addressCount : Nat := 4294967296

/-- One entry `(dx, dy, colour)` of the sprite table (R184). -/
structure SpritePixel where
  dx : Int
  dy : Int
  colour : Word
deriving DecidableEq, Repr

/-- The entries of one row of the sprite, in the order of `dxs`. -/
def spriteRow (dy : Int) (dxs : List Int) (colour : Word) : List SpritePixel :=
  dxs.map fun dx => ⟨dx, dy, colour⟩

/-- The default `SPRITE_TABLE`: 27 pixels, hat, face strip, robe block (R184). -/
def defaultSpriteTable : List SpritePixel :=
  spriteRow 0 [2] 0x000000FF#32
    ++ spriteRow 1 [1, 2, 3] 0x000000FF#32
    ++ spriteRow 2 [0, 1, 2, 3, 4] 0x000000FF#32
    ++ spriteRow 3 [1, 2, 3] 0x00FFCC99#32
    ++ spriteRow 4 [0, 1, 2, 3, 4] 0x00800080#32
    ++ spriteRow 5 [0, 1, 2, 3, 4] 0x00800080#32
    ++ spriteRow 6 [0, 1, 2, 3, 4] 0x00800080#32

/-- The parameters of R9, each a field with the spec's default (log 6).
PRESUMED for `reg0Zero` (R21 leaves it OPEN and recommends `true` from the family; log 3). -/
structure Config where
  /-- `FB_BASE`: byte address of pixel (0, 0). -/
  fbBase : Word := 0x10040000#32
  /-- `BANK_BASE`: index of the first bank register. -/
  bankBase : Nat := 8
  /-- `SYS_SEL_REG`. -/
  sysSelReg : Reg := 2
  /-- `SYS_ARG_REG`. -/
  sysArgReg : Reg := 4
  /-- `SVC_PRINT_INT`. -/
  svcPrintInt : Int := 1
  /-- `SVC_PRINT_STR`. -/
  svcPrintStr : Int := 4
  /-- `SVC_EXIT`. -/
  svcExit : Int := 10
  /-- `REG0_ZERO`. -/
  reg0Zero : Bool := true
  /-- `PC_RESET`. -/
  pcReset : Word := 0x00400000#32
  /-- `SPRITE_BASE_Y`. -/
  spriteBaseY : Int := 100
  /-- `SPRITE_TABLE`. -/
  spriteTable : List SpritePixel := defaultSpriteTable
deriving DecidableEq, Repr

/-- A range `[lo, hi)` of byte addresses the platform makes valid. -/
structure Region where
  lo : Nat
  hi : Nat
deriving DecidableEq, Repr

/-- What a run is launched on and never changes (R36): the configuration, `ValidByte` as a list of address ranges
(R40; every predicate on finitely many addresses is such a list), `IMem` (R26) and `SymTab` (R30) as lists of
key and value, the first entry of a key counting (log 5). -/
structure Platform where
  cfg : Config := {}
  valid : List Region
  imem : List (Word × Word)
  symTab : List (Half × Word)
deriving DecidableEq, Repr

end Sys2Proof
end

