-- ==== Sys2Proof/Machine/State.lean ====
section
/-! DEFINITION. The machine's state as plain data (10_state.md R20 to R36, 70_reset_and_hazards.md R233), the launch state
(R35) and the state after reset. -/

namespace Sys2Proof.Machine

open Sys2Proof

/-- Data memory `Mem` (R26, R40): address and byte pairs, addresses strictly rising, no entry equal to what an unlisted
address reads as (`Memory.wf`, Machine/Ops.lean). -/
abbrev Memory := List Host.Cell

/-- The kinds of failure (60_exceptions.md R200 to R205). -/
inductive FailKind where
  /-- A memory access outside the valid range or misaligned (R201). -/
  | addressError
  /-- An unrecognised system-call selector (R202). -/
  | unsupportedOperation
  /-- No catalog entry matches the word (R203). -/
  | noMatch
  /-- A label reference absent from `SymTab` (R203). -/
  | unresolvedSymbol
  /-- The driver could not fetch; never reported by DDFB itself (R205). -/
  | fetchError
deriving DecidableEq, Repr

/-- What DDFB reports at the end of one transaction (10_state.md R33, 60_exceptions.md R200). -/
inductive DispatchOutcome where
  | next
  | transfer (target : Word)
  | terminate
  | fail (kind : FailKind) (info : Word)
deriving DecidableEq, Repr

/-- The driver's run status (R34). -/
inductive Status where
  | running
  | terminated
  | failed (kind : FailKind) (info : Word)
deriving DecidableEq, Repr

/-- The whole machine (R233: `(x, Mem, Out, pc, status)`), with the outcome of the transaction in progress (R33; it holds
the pending transfer request of R35) and the launch parameters (R36). -/
structure State where
  /-- `x[0] .. x[31]` (R20). -/
  x : Vector Word 32
  /-- `Mem` (R26, R40). -/
  mem : Memory
  /-- `Out`, oldest byte first (R26, R32). -/
  out : List Byte
  /-- The driver's program counter (R23). -/
  pc : Word
  /-- The driver's run status (R34). -/
  status : Status
  /-- The outcome DDFB has reported and the driver has not yet applied; `none` between steps (R33, R35; log 8). -/
  outcome : Option DispatchOutcome
  /-- Configuration, `ValidByte`, `IMem`, `SymTab`: constant during a run (R36). -/
  plat : Platform
deriving DecidableEq, Repr

/-- Why a step has no next state. -/
inductive Fault where
  /-- Raised by `step` when the status is not Running: R234 defines a step "only when `status = Running`", and nothing
  is dispatched after that (R34). Safe (log 9). -/
  | notRunning (status : Status)
  /-- Raised by the string loop of PSTR and SYSCALL when all `2^32` addresses are valid and none holds zero: the
  instruction never completes (R156; 93_implementation_defined.md U8, `stuck`). Safe (log 10). -/
  | stringNeverEnds
deriving DecidableEq, Repr

/-- Why the machine gives no meaning. -/
inductive Refusal where
  /-- Raised by an arm of `exec` for an instruction that has no meaning yet; no arm does. Safe. -/
  | notModelled (mnemonic : String)
  /-- Raised by `step` on a configuration R9 forbids (93_implementation_defined.md U15, `refuse`). Safe (log 11). -/
  | invalidConfiguration
deriving DecidableEq, Repr

/-- The launch state of R35 on a platform, from the launch values of the registers and of memory.
`x[0]` is `0x00000000` if `REG0_ZERO`. -/
def State.launch (p : Platform) (x : Vector Word 32) (mem : Memory) : State :=
  { x := if p.cfg.reg0Zero then x.set 0 0#32 else x
    mem
    out := []
    pc := p.cfg.pcReset
    status := .running
    outcome := none
    plat := p }

/-- The platform of `State.reset`: R9's defaults; every byte address valid (DESIGN CHOICE, log 4); no program and no
symbol (DESIGN CHOICE, log 5). -/
def resetPlatform : Platform :=
  { cfg := {}, valid := [⟨0, addressCount⟩], imem := [], symTab := [] }

/-- The machine right after reset (R35, R230). The launch values of the registers (zero) and of memory (nothing listed)
are DESIGN CHOICES (log 1, log 2). -/
def State.reset : State :=
  State.launch resetPlatform (Vector.replicate 32 0#32) []

end Sys2Proof.Machine
end

