-- ==== Sys2Proof/Machine/Ops.lean ====
section
/-! DEFINITION. The named operations over registers, memory, symbols, output and control (00_scope.md R13, R14; 10_state.md
R28 to R34; 20_memory.md R40 to R48): every port of the machine, once. -/

namespace Sys2Proof.Machine

open Sys2Proof

/-! ### Memory as a canonical list -/

/-- What an unlisted address reads as. DESIGN CHOICE 0 (log 1): R35 leaves memory's launch contents unspecified. -/
def unlistedByte : Byte := 0#8

/-- `Mem[a]`. -/
def Memory.read : Memory → Nat → Byte
  | [], _ => unlistedByte
  | (k, b) :: m, a => if k = a then b else Memory.read m a

/-- `Mem[a] <- b`, keeping the canonical form: writing what an unlisted address reads as removes the entry. -/
def Memory.writeByte : Memory → Nat → Byte → Memory
  | [], a, b => if b = unlistedByte then [] else [(a, b)]
  | (k, c) :: m, a, b =>
    if a < k then (if b = unlistedByte then (k, c) :: m else (a, b) :: (k, c) :: m)
    else if a = k then (if b = unlistedByte then m else (a, b) :: m)
    else (k, c) :: Memory.writeByte m a b

/-- The four bytes of a word at `a`, least significant first (R43, R44). -/
def Memory.writeWord (m : Memory) (a : Nat) (v : Word) : Memory :=
  (((m.writeByte a (byteOf v 0)).writeByte (a + 1) (byteOf v 1)).writeByte (a + 2) (byteOf v 2)).writeByte
    (a + 3) (byteOf v 3)

/-- Every address listed is at least `lo`, they rise strictly, none is past the address space, and no entry holds the
unlisted byte. -/
def Memory.wfFrom : Nat → Memory → Bool
  | _, [] => true
  | lo, (k, b) :: m => decide (lo ≤ k) && decide (k < addressCount) && decide (b ≠ unlistedByte) && Memory.wfFrom (k + 1) m

/-- The canonical form of memory. -/
def Memory.wf (m : Memory) : Bool := m.wfFrom 0

/-- The entries a word adds to a canonical memory: its bytes at `a`, `a + 1`, `a + 2`, `a + 3` that are listed. -/
def wordCells (a : Nat) (v : Word) : Memory :=
  [(a, byteOf v 0), (a + 1, byteOf v 1), (a + 2, byteOf v 2), (a + 3, byteOf v 3)].filter fun e => e.2 ≠ unlistedByte

/-- Memory with the `n` consecutive words from `base` on all equal to `v`, in one pass over a canonical memory. -/
def Memory.fillWords (m : Memory) (base n : Nat) (v : Word) : Memory :=
  (m.filter fun e => e.1 < base)
    ++ ((List.range n).flatMap fun k => wordCells (base + 4 * k) v)
    ++ (m.filter fun e => base + 4 * n ≤ e.1)

/-! ### Which addresses exist (R40) -/

/-- `ValidByte(a)` (R40). -/
def validByte (p : Platform) (a : Nat) : Bool :=
  p.valid.any fun r => decide (r.lo ≤ a) && decide (a < r.hi)

/-- `ValidWord(a)`: aligned, and four valid bytes (R40). -/
def validWord (p : Platform) (a : Nat) : Bool :=
  a % 4 == 0 && validByte p a && validByte p (a + 1) && validByte p (a + 2) && validByte p (a + 3)

/-! ### The memory port (R29, R42, R43) -/

/-- `MemRead(addr, 1)`: the byte, or `none` where the read raises `AddressError(addr)` (R42). -/
def State.memRead (s : State) (a : Word) : Option Byte :=
  if validByte s.plat (u32 a) then some (s.mem.read (u32 a)) else none

/-- Memory after a sequence of word writes, and the address of the write that failed and ended it (R43, R56). -/
structure DrawResult where
  mem : Memory
  failed : Option Word
deriving DecidableEq, Repr

/-- `MemWrite(addr, 4, v)`: four bytes as one update, or nothing written and the failing address (R43). -/
def memWrite (p : Platform) (a v : Word) (m : Memory) : DrawResult :=
  if validWord p (u32 a) then ⟨m.writeWord (u32 a) v, none⟩ else ⟨m, some a⟩

/-- Run `body` on each element in order, stopping at the first write that fails: earlier writes stay (R56, R175). -/
def forEach {α : Type} (body : α → Memory → DrawResult) : List α → Memory → DrawResult
  | [], m => ⟨m, none⟩
  | e :: es, m =>
    match body e m with
    | ⟨m', none⟩ => forEach body es m'
    | ⟨m', some a⟩ => ⟨m', some a⟩

/-! ### The register port (R28) -/

/-- Register 0 reads as zero and ignores writes (R21). -/
def State.hardwired (s : State) (r : Reg) : Bool := s.plat.cfg.reg0Zero && r == 0

/-- `x[i]` (R13, R21, R28). -/
def State.readReg (s : State) (r : Reg) : Word :=
  if s.hardwired r then 0#32 else s.x[r]

/-- `x[i] <- v` (R13, R21, R28). -/
def State.writeReg (s : State) (r : Reg) (v : Word) : State :=
  if s.hardwired r then s else { s with x := s.x.set r v }

/-- Bank register `j`, `x[BANK_BASE + j]` (R9, R22). In a configuration R9 allows the index is below 32 and nothing
wraps (log 11). -/
def bankReg (c : Config) (j : Nat) : Reg := Fin.ofNat 32 (c.bankBase + j)

/-- The indices `0 .. 7` of the bank, ascending (R122, R123). -/
def bankIndices : List Nat := List.range bankLen

/-! ### The symbol port (R30) and the output port (R32) -/

/-- The value of a key in a partial map held as a list: the first entry of the key (log 5). -/
def lookupKey {κ : Type} [DecidableEq κ] (key : κ) : List (κ × Word) → Option Word
  | [] => none
  | (k, v) :: rest => if k = key then some v else lookupKey key rest

/-- `SymResolve(ref)`: the address, or `none` where it raises `UnresolvedSymbol(ref)` (R30). -/
def State.symResolve (s : State) (ref : Half) : Option Word := lookupKey ref s.plat.symTab

/-- `Emit(bytes)` (R32). -/
def State.emit (s : State) (bytes : List Byte) : State := { s with out := s.out ++ bytes }

/-! ### Control primitives (R14): each ends the transaction with its one outcome -/

/-- The routine ran to its end: outcome `Next`. -/
def State.complete (s : State) : State := { s with outcome := some .next }

/-- `pc <- target`: `RequestTransfer(target)`, outcome `Transfer(target)`; the pc itself is the driver's (R31, R140). -/
def State.requestTransfer (s : State) (target : Word) : State := { s with outcome := some (.transfer target) }

/-- `terminate`: outcome `Terminate` (R204). -/
def State.terminate (s : State) : State := { s with outcome := some .terminate }

/-- `raise K(info)`: outcome `Fail(K, info)`. Every effect already performed stays, nothing is saved and there is no
vector: this, with `applyOutcome` after it, is the whole "trap entry" of R206. -/
def State.raise (s : State) (kind : FailKind) (info : Word) : State := { s with outcome := some (.fail kind info) }

/-! ### The driver's side (R24, R34, R205, R234) -/

/-- The driver stops with `status <- Failed(kind, info)` and keeps the pc (R206, R234). -/
def State.stopFailed (s : State) (kind : FailKind) (info : Word) : State :=
  { s with status := .failed kind info, outcome := none }

/-- Step (3) of R234: apply the reported outcome. A transaction always reports one; if none were reported the driver
would do nothing (log 8). There is no return from a failure (R206). -/
def State.applyOutcome (s : State) : State :=
  match s.outcome with
  | none => s
  | some .next => { s with pc := wrap32 (u32 s.pc + 4), outcome := none }
  | some (.transfer t) => { s with pc := t, outcome := none }
  | some .terminate => { s with status := .terminated, outcome := none }
  | some (.fail kind info) => s.stopFailed kind info

/-- Step (1) of R234: the word at the pc, or `none` where the fetch fails (R205). -/
def State.fetch (s : State) : Option Word :=
  if u32 s.pc % 4 = 0 then lookupKey s.pc s.plat.imem else none

/-! ### The numeric codes of the binary interface (R200) -/

/-- The code of a failure kind; 7 is the driver's (R200). -/
def FailKind.code : FailKind → Nat
  | .addressError => 3
  | .unsupportedOperation => 4
  | .noMatch => 5
  | .unresolvedSymbol => 6
  | .fetchError => 7

/-- The code of an outcome (R200). -/
def DispatchOutcome.code : DispatchOutcome → Nat
  | .next => 0
  | .transfer _ => 1
  | .terminate => 2
  | .fail kind _ => kind.code

/-- The `info` word of an outcome (R200). -/
def DispatchOutcome.info : DispatchOutcome → Option Word
  | .next => none
  | .transfer t => some t
  | .terminate => none
  | .fail _ info => some info

end Sys2Proof.Machine
end

