-- ==== Sys2Proof/Machine/Arith.lean ====
section
/-! DEFINITION. The arithmetic and logic instructions (40_arith_logic.md R110 to R126): each reads its register operands,
writes one destination (DRAIN also the bank) and completes; none can fail. -/

namespace Sys2Proof.Machine

open Sys2Proof

/-- Write the destination and complete (R110). -/
def finishReg (rd : Reg) (v : Word) (s : State) : Host.Outcome State Fault Refusal :=
  .next (s.writeReg rd v).complete

/-- ADDI (R112). -/
def addValue (a b : Word) : Word := wrap32 (s32 a + s32 b)

/-- SUBI (R113). -/
def subValue (a b : Word) : Word := wrap32 (s32 a - s32 b)

/-- MAXMAG (R114): magnitudes over the integers, a tie keeps regA. -/
def maxmagValue (a b : Word) : Word := if (s32 a).natAbs ≥ (s32 b).natAbs then a else b

/-- AVG (R115): the sum is wrapped to 32 bits before the division. -/
def avgValue (a b : Word) : Word := wrap32 (tdiv (s32 (wrap32 (s32 a + s32 b))) 2)

/-- XOR (R116). -/
def xorValue (a b : Word) : Word := a ^^^ b

/-- CMP3 (R117). -/
def cmp3Value (a b : Word) : Word := wrap32 (threeWay (s32 a) (s32 b))

/-- CLAMP (R118). -/
def clampValue (a : Word) : Word :=
  if s32 a < clampLo then wrap32 clampLo else if s32 a > clampHi then wrap32 clampHi else a

/-- MODNORM (R119). -/
def modnormValue (a : Word) : Word := wrap32 (fmod (s32 a) modN - modNBias)

/-- SGNC (R120). -/
def sgncValue (a : Word) : Word := if isPositive a then 1#32 else 0#32

/-- BIDX (R121). -/
def bidxValue (a n : Word) : Word := if s32 n ≤ 0 then 0#32 else wrap32 (fmod (s32 a) (s32 n))

/-- LUI (R124): `imm ++ 0x0000`. -/
def luiValue (imm : Half) : Word := wrap32 (u32 (uimm imm) * 65536)

/-- ORI (R125). -/
def oriValue (a b : Word) : Word := a ||| b

/-- The exact sum of the bank's signed values (R122). -/
def bankSum (s : State) : List Nat → Int
  | [] => 0
  | j :: js => s32 (s.readReg (bankReg s.plat.cfg j)) + bankSum s js

/-- DRAIN's loop (R123): each bank register is read, tested, and decremented if positive, in ascending order; the count
goes on. -/
def drainLoop : List Nat → State → Nat → State × Nat
  | [], s, count => (s, count)
  | j :: js, s, count =>
    let r := bankReg s.plat.cfg j
    let v := s.readReg r
    if isPositive v then drainLoop js (s.writeReg r (wrap32 (s32 v - 1))) (count + 1)
    else drainLoop js s count

/-- R112. -/
def execAddi (rt rs : Reg) (imm : Half) (s : State) : Host.Outcome State Fault Refusal :=
  finishReg rt (addValue (s.readReg rs) (simm imm)) s

/-- R113. -/
def execSubi (rt rs : Reg) (imm : Half) (s : State) : Host.Outcome State Fault Refusal :=
  finishReg rt (subValue (s.readReg rs) (simm imm)) s

/-- R114. -/
def execMaxmag (rd rs rt : Reg) (s : State) : Host.Outcome State Fault Refusal :=
  finishReg rd (maxmagValue (s.readReg rs) (s.readReg rt)) s

/-- R115. -/
def execAvg (rd rs rt : Reg) (s : State) : Host.Outcome State Fault Refusal :=
  finishReg rd (avgValue (s.readReg rs) (s.readReg rt)) s

/-- R116. -/
def execXor (rd rs rt : Reg) (s : State) : Host.Outcome State Fault Refusal :=
  finishReg rd (xorValue (s.readReg rs) (s.readReg rt)) s

/-- R117. -/
def execCmp3 (rd rs rt : Reg) (s : State) : Host.Outcome State Fault Refusal :=
  finishReg rd (cmp3Value (s.readReg rs) (s.readReg rt)) s

/-- R118. -/
def execClamp (rd rs : Reg) (s : State) : Host.Outcome State Fault Refusal :=
  finishReg rd (clampValue (s.readReg rs)) s

/-- R119. -/
def execModnorm (rd rs : Reg) (s : State) : Host.Outcome State Fault Refusal :=
  finishReg rd (modnormValue (s.readReg rs)) s

/-- R120. -/
def execSgnc (rd rs : Reg) (s : State) : Host.Outcome State Fault Refusal :=
  finishReg rd (sgncValue (s.readReg rs)) s

/-- R121. -/
def execBidx (rd rs rt : Reg) (s : State) : Host.Outcome State Fault Refusal :=
  finishReg rd (bidxValue (s.readReg rs) (s.readReg rt)) s

/-- R122. -/
def execSumbank (rd : Reg) (s : State) : Host.Outcome State Fault Refusal :=
  finishReg rd (wrap32 (bankSum s bankIndices)) s

/-- R123: `x[rd]` is read after the loop. -/
def execDrain (rd : Reg) (s : State) : Host.Outcome State Fault Refusal :=
  let r := drainLoop bankIndices s 0
  finishReg rd (wrap32 (s32 (r.1.readReg rd) + r.2)) r.1

/-- R124; the `rs` field is ignored (R97). -/
def execLui (rt _rs : Reg) (imm : Half) (s : State) : Host.Outcome State Fault Refusal :=
  finishReg rt (luiValue imm) s

/-- R125. -/
def execOri (rt rs : Reg) (imm : Half) (s : State) : Host.Outcome State Fault Refusal :=
  finishReg rt (oriValue (s.readReg rs) (uimm imm)) s

end Sys2Proof.Machine
end

