-- ==== Sys2Proof/Machine/Control.lean ====
section
/-! DEFINITION. The control-transfer instructions (41_control_transfer.md R140 to R145): a taken one requests a transfer and
never writes the pc itself. -/

namespace Sys2Proof.Machine

open Sys2Proof

/-- Request the branch's target when the condition holds, else complete (R140, R141). -/
def branchIf (taken : Bool) (imm : Half) (s : State) : Host.Outcome State Fault Refusal :=
  if taken then .next (s.requestTransfer (branchTarget s.pc imm)) else .next s.complete

/-- R142. -/
def execBpos (rs : Reg) (imm : Half) (s : State) : Host.Outcome State Fault Refusal :=
  branchIf (isPositive (s.readReg rs)) imm s

/-- R143. -/
def execBneg (rs : Reg) (imm : Half) (s : State) : Host.Outcome State Fault Refusal :=
  branchIf (isNegative (s.readReg rs)) imm s

/-- R144. -/
def execBeq (rs rt : Reg) (imm : Half) (s : State) : Host.Outcome State Fault Refusal :=
  branchIf (isEqual (s.readReg rs) (s.readReg rt)) imm s

/-- R145. -/
def execJmp (ref : Half) (s : State) : Host.Outcome State Fault Refusal :=
  match s.symResolve ref with
  | some t => .next (s.requestTransfer t)
  | none => .next (s.raise .unresolvedSymbol (refInfo ref))

end Sys2Proof.Machine
end

