-- ==== Sys2Proof/Syntax.lean ====
section
/-! DEFINITION. The instructions: one constructor per row of spec/opcode_table.json, in catalog order
(30_encoding.md R80), with the operands in the assembly order of R98. -/

namespace Sys2Proof

/-- The format tags of R27: `R` register-register (R72), `I` register-immediate (R73), `B` branch-immediate (R74). -/
inductive Format where
  | R
  | I
  | B
deriving DecidableEq, Repr

/-- The instruction occurrence (R90): a catalog entry with its operand fields.
`imm` and `ref` are the 16-bit field as it stands in the word; `Machine/Operands.lean` resolves it (R92 to R95). -/
inductive Instr where
  | addi (rt rs : Reg) (imm : Half)
  | subi (rt rs : Reg) (imm : Half)
  | maxmag (rd rs rt : Reg)
  | avg (rd rs rt : Reg)
  | xor (rd rs rt : Reg)
  | cmp3 (rd rs rt : Reg)
  | clamp (rd rs : Reg)
  | modnorm (rd rs : Reg)
  | sgnc (rd rs : Reg)
  | bidx (rd rs rt : Reg)
  | sumbank (rd : Reg)
  | drain (rd : Reg)
  /-- `rs` is extracted and ignored (R97); it is kept so that no bit of the word is lost (log 13). -/
  | lui (rt rs : Reg) (imm : Half)
  | ori (rt rs : Reg) (imm : Half)
  | bpos (rs : Reg) (imm : Half)
  | bneg (rs : Reg) (imm : Half)
  | beq (rs rt : Reg) (imm : Half)
  | jmp (ref : Half)
  | pstr (ref : Half)
  | syscall
  | pixel (rs rt rd : Reg)
  | fillall (rs : Reg)
  | fillrow (rs rt : Reg)
  | fillcol (rs rt : Reg)
  | sprite (rs : Reg)
deriving DecidableEq, Repr

end Sys2Proof
end

