-- ==== Sys2Proof/WellFormed.lean ====
section
/-! DEFINITION. What the types do not already check: a configuration (00_scope.md R9, 93_implementation_defined.md U15)
and an instruction as the assembler writes it (30_encoding.md R97, R98).
Register indices and 16-bit fields are in range by their types (R91 to R95; 93_implementation_defined.md U13). -/

namespace Sys2Proof

/-- R9 on `FB_BASE`: "must be a multiple of 4 and `FB_BASE + 0x100000 <= 2^32`". -/
def Config.fbBaseOk (c : Config) : Bool :=
  c.fbBase.toNat % 4 == 0 && decide (c.fbBase.toNat + fbBytes ≤ addressCount)

/-- R9 on `BANK_BASE`: "must be `<= 24`". -/
def Config.bankBaseOk (c : Config) : Bool :=
  decide (c.bankBase ≤ 24)

/-- A configuration R9 allows; any other is rejected before the run starts (U15). -/
def Config.wellFormed (c : Config) : Bool :=
  c.fbBaseOk && c.bankBaseOk

/-- R98: a JMP or PSTR label "must have a reference number in `SymTab`". -/
def refKnown (symTab : List (Half × Word)) (ref : Half) : Bool :=
  symTab.any fun e => e.1 == ref

/-- An instruction the assembler of R98 writes for a platform with this symbol table: a label reference is known, and
LUI's ignored `rs` is 0 (R97, "The assembler writes `rs = 00000`").
The machine runs ill-formed ones too (R97, R203); this is the toolchain's check, not the decoder's. -/
def Instr.wellFormed (symTab : List (Half × Word)) : Instr → Bool
  | .jmp ref => refKnown symTab ref
  | .pstr ref => refKnown symTab ref
  | .lui _ rs _ => rs == 0
  | .addi _ _ _ => true
  | .subi _ _ _ => true
  | .maxmag _ _ _ => true
  | .avg _ _ _ => true
  | .xor _ _ _ => true
  | .cmp3 _ _ _ => true
  | .clamp _ _ => true
  | .modnorm _ _ => true
  | .sgnc _ _ => true
  | .bidx _ _ _ => true
  | .sumbank _ => true
  | .drain _ => true
  | .ori _ _ _ => true
  | .bpos _ _ => true
  | .bneg _ _ => true
  | .beq _ _ _ => true
  | .syscall => true
  | .pixel _ _ _ => true
  | .fillall _ => true
  | .fillrow _ _ => true
  | .fillcol _ _ => true
  | .sprite _ => true

end Sys2Proof
end

