-- ==== Sys2Proof/Machine/Framebuffer.lean ====
section
/-! DEFINITION. The framebuffer unit and the drawing instructions (43_framebuffer.md R170 to R185). -/

namespace Sys2Proof.Machine

open Sys2Proof

/-- The address calculator, for `x` and `y` in `[0, 511]` (R171). -/
def pixelAddr (c : Config) (x y : Nat) : Word :=
  c.fbBase + BitVec.ofNat 32 ((y * fbWidth + x) * fbPixelBytes)

/-- The bounds check, on signed readings (R172). -/
def inBounds (x y : Word) : Bool :=
  decide (0 ≤ s32 x) && decide (s32 x < fbWidth) && decide (0 ≤ s32 y) && decide (s32 y < fbHeight)

/-- `PixelWrite(x, y, c)`: one word write in bounds, nothing and no failure out of bounds (R173). -/
def pixelWrite (p : Platform) (x y c : Word) (m : Memory) : DrawResult :=
  if inBounds x y then memWrite p (pixelAddr p.cfg (s32 x).toNat (s32 y).toNat) c m else ⟨m, none⟩

/-- The columns `0 .. 511` ascending, as the patterns the generator feeds to the controller (R181). -/
def columns : List Word := (List.range fbWidth).map (BitVec.ofNat 32)

/-- The rows `0 .. 511` ascending (R181). -/
def rows : List Word := (List.range fbHeight).map (BitVec.ofNat 32)

/-- The row generator: `x` ascending (R178). -/
def fillRow (p : Platform) (y c : Word) : Memory → DrawResult :=
  forEach (fun x => pixelWrite p x y c) columns

/-- The column generator: `y` ascending (R179). -/
def fillCol (p : Platform) (x c : Word) : Memory → DrawResult :=
  forEach (fun y => pixelWrite p x y c) rows

/-- The whole-grid generator: `y` outer, `x` inner, both ascending (R177). -/
def fillAllLoop (p : Platform) (c : Word) : Memory → DrawResult :=
  forEach (fun y => fillRow p y c) rows

/-- One of the platform's regions holds the whole framebuffer, at a base R9 allows (R41). -/
def framebufferValid (p : Platform) : Bool :=
  p.cfg.fbBaseOk
    && p.valid.any fun r => decide (r.lo ≤ u32 p.cfg.fbBase) && decide (u32 p.cfg.fbBase + fbBytes ≤ r.hi)

/-- The whole-grid fill: the loop, or where no write can fail the one contiguous sweep of R181 in a single pass.
The two are the same function (`fillAll_eq_loop`, Laws/Framebuffer.lean); 262144 separate insertions into a list could
not be evaluated. -/
def fillAll (p : Platform) (c : Word) (m : Memory) : DrawResult :=
  if framebufferValid p && m.wf then ⟨m.fillWords (u32 p.cfg.fbBase) (fbWidth * fbHeight) c, none⟩
  else fillAllLoop p c m

/-- The sprite generator, in table order (R180). The row `SPRITE_BASE_Y + dy` reaches the controller as a 32-bit pattern
(R173; DEDUCED, log 15). -/
def drawSprite (p : Platform) (xo : Word) : Memory → DrawResult :=
  forEach (fun e => pixelWrite p (wrap32 (s32 xo + e.dx)) (wrap32 (p.cfg.spriteBaseY + e.dy)) e.colour)
    p.cfg.spriteTable

/-- The memory after the drawing and the outcome: `Next`, or `Fail(AddressError, addr)` with the earlier writes kept (R175). -/
def finishDraw (r : DrawResult) (s : State) : Host.Outcome State Fault Refusal :=
  match r.failed with
  | none => .next { s with mem := r.mem }.complete
  | some a => .next ({ s with mem := r.mem }.raise .addressError a)

/-- R176: `rd` names the colour, a source. -/
def execPixel (rs rt rd : Reg) (s : State) : Host.Outcome State Fault Refusal :=
  finishDraw (pixelWrite s.plat (s.readReg rs) (s.readReg rt) (s.readReg rd) s.mem) s

/-- R177. -/
def execFillall (rs : Reg) (s : State) : Host.Outcome State Fault Refusal :=
  finishDraw (fillAll s.plat (s.readReg rs) s.mem) s

/-- R178. -/
def execFillrow (rs rt : Reg) (s : State) : Host.Outcome State Fault Refusal :=
  finishDraw (fillRow s.plat (s.readReg rs) (s.readReg rt) s.mem) s

/-- R179. -/
def execFillcol (rs rt : Reg) (s : State) : Host.Outcome State Fault Refusal :=
  finishDraw (fillCol s.plat (s.readReg rs) (s.readReg rt) s.mem) s

/-- R180. -/
def execSprite (rs : Reg) (s : State) : Host.Outcome State Fault Refusal :=
  finishDraw (drawSprite s.plat (s.readReg rs) s.mem) s

end Sys2Proof.Machine
end

