-- ==== Sys2Proof/Machine/StringSyscall.lean ====
section
/-! DEFINITION. The string and system-call instructions (42_string_syscall.md R155 to R160). -/

namespace Sys2Proof.Machine

open Sys2Proof

/-- The ASCII digit of `d < 10`, `0x30 + d` (R159). -/
def digitByte (d : Nat) : Byte := BitVec.ofNat 8 (0x30 + d)

/-- The decimal digits of `n` without leading zeros, a single `0x30` for zero (R159); `fuel` bounds their number. -/
def decimalDigits : Nat → Nat → List Byte
  | 0, _ => []
  | fuel + 1, n => if n < 10 then [digitByte n] else decimalDigits fuel (n / 10) ++ [digitByte (n % 10)]

/-- `DecimalText(n)` for `n` in `[INT_MIN, INT_MAX]`, at most ten digits (R159). -/
def decimalText (n : Int) : List Byte :=
  (if n < 0 then [0x2D#8] else []) ++ decimalDigits 10 n.natAbs

/-- The loop of `PrintString` (R156): read a byte, stop at zero, emit it, go on at the next address, wrapping. The fuel is
the number of addresses: once that many non-zero bytes are read the loop is back where it began and never ends (U8). -/
def printLoop : Nat → Word → State → Host.Outcome State Fault Refusal
  | 0, _, _ => .fault .stringNeverEnds
  | fuel + 1, a, s =>
    match s.memRead a with
    | none => .next (s.raise .addressError a)
    | some b =>
      if b = 0#8 then .next s.complete
      else printLoop fuel (wrap32 (u32 a + 1)) (s.emit [b])

/-- `PrintString(a0)` (R156). -/
def printString (a0 : Word) (s : State) : Host.Outcome State Fault Refusal :=
  printLoop addressCount a0 s

/-- R157. -/
def execPstr (ref : Half) (s : State) : Host.Outcome State Fault Refusal :=
  match s.symResolve ref with
  | some a0 => printString a0 s
  | none => .next (s.raise .unresolvedSymbol (refInfo ref))

/-- R158, R160: the three services in the order of the pseudocode, any other selector unsupported. -/
def execSyscall (s : State) : Host.Outcome State Fault Refusal :=
  let c := s.plat.cfg
  let sel := s.readReg c.sysSelReg
  if s32 sel = c.svcPrintInt then .next (s.emit (decimalText (s32 (s.readReg c.sysArgReg)))).complete
  else if s32 sel = c.svcPrintStr then printString (s.readReg c.sysArgReg) s
  else if s32 sel = c.svcExit then .next s.terminate
  else .next (s.raise .unsupportedOperation sel)

end Sys2Proof.Machine
end

