-- ==== Sys2Proof/Machine/Dispatch.lean ====
section
/-! DEFINITION. The dispatch of a matched instruction to its routine (00_scope.md R3, 10_state.md R33): one arm per entry. -/

namespace Sys2Proof.Machine

open Sys2Proof

/-- One dispatch transaction: the routine runs to completion and reports one outcome in the state it leaves (R33, R200). -/
def exec (i : Instr) (s : State) : Host.Outcome State Fault Refusal :=
  match i with
  | .addi rt rs imm => Sys2Proof.Machine.execAddi rt rs imm s
  | .subi rt rs imm => Sys2Proof.Machine.execSubi rt rs imm s
  | .maxmag rd rs rt => Sys2Proof.Machine.execMaxmag rd rs rt s
  | .avg rd rs rt => Sys2Proof.Machine.execAvg rd rs rt s
  | .xor rd rs rt => Sys2Proof.Machine.execXor rd rs rt s
  | .cmp3 rd rs rt => Sys2Proof.Machine.execCmp3 rd rs rt s
  | .clamp rd rs => Sys2Proof.Machine.execClamp rd rs s
  | .modnorm rd rs => Sys2Proof.Machine.execModnorm rd rs s
  | .sgnc rd rs => Sys2Proof.Machine.execSgnc rd rs s
  | .bidx rd rs rt => Sys2Proof.Machine.execBidx rd rs rt s
  | .sumbank rd => Sys2Proof.Machine.execSumbank rd s
  | .drain rd => Sys2Proof.Machine.execDrain rd s
  | .lui rt rs imm => Sys2Proof.Machine.execLui rt rs imm s
  | .ori rt rs imm => Sys2Proof.Machine.execOri rt rs imm s
  | .bpos rs imm => Sys2Proof.Machine.execBpos rs imm s
  | .bneg rs imm => Sys2Proof.Machine.execBneg rs imm s
  | .beq rs rt imm => Sys2Proof.Machine.execBeq rs rt imm s
  | .jmp ref => Sys2Proof.Machine.execJmp ref s
  | .pstr ref => Sys2Proof.Machine.execPstr ref s
  | .syscall => Sys2Proof.Machine.execSyscall s
  | .pixel rs rt rd => Sys2Proof.Machine.execPixel rs rt rd s
  | .fillall rs => Sys2Proof.Machine.execFillall rs s
  | .fillrow rs rt => Sys2Proof.Machine.execFillrow rs rt s
  | .fillcol rs rt => Sys2Proof.Machine.execFillcol rs rt s
  | .sprite rs => Sys2Proof.Machine.execSprite rs s

end Sys2Proof.Machine
end

