-- ==== Sys2Proof/Decode.lean ====
section
/-! DEFINITION. Patterns, the catalog, the pattern matcher, the fields of the operand resolver, the construction check,
and the encoder (30_encoding.md R70 to R84, R90, R91, R96, R97).
The numbers are the spec's decisions D1 and D2 (log 7). -/

namespace Sys2Proof

/-- One position of an encoding pattern (R75): a literal bit or the letter of a variable field (R71). -/
inductive PatChar where
  | lit (bit : Bool)
  | s
  | t
  | d
  | i
deriving DecidableEq, Repr

/-- An encoding pattern, most significant position first (R75). -/
abbrev Pattern := List PatChar

/-- `width` literal bits that spell `value`, most significant first. -/
def litBits (width value : Nat) : Pattern :=
  (List.range width).map fun k => .lit (value.testBit (width - 1 - k))

/-- Five positions of `rs` (R71). -/
def patS : Pattern := List.replicate 5 .s
/-- Five positions of `rt` (R71). -/
def patT : Pattern := List.replicate 5 .t
/-- Five positions of `rd` (R71). -/
def patD : Pattern := List.replicate 5 .d
/-- Sixteen positions of `imm` (R71). -/
def patI : Pattern := List.replicate 16 .i
/-- Five literal zeros: a register field the entry does not use, or `sh` (R72, R83). -/
def zero5 : Pattern := litBits 5 0

/-- The register format `op rs rt rd sh fn` (R72), the three register fields given. -/
def formatR (op : Nat) (rs rt rd : Pattern) (fn : Nat) : Pattern :=
  litBits 6 op ++ rs ++ rt ++ rd ++ zero5 ++ litBits 6 fn

/-- The immediate and branch formats `op rs rt imm` (R73, R74). -/
def formatI (op : Nat) (rs rt : Pattern) : Pattern :=
  litBits 6 op ++ rs ++ rt ++ patI

/-- The word with bit `31 - k` set exactly where `f` holds of position `k` (R75). -/
def patternBits (f : PatChar → Bool) (p : Pattern) : Word :=
  p.foldl (fun w c => (w <<< 1) ||| (if f c then 1#32 else 0#32)) 0#32

/-- `mask`: 1 exactly at the literal positions (R75). -/
def Pattern.mask (p : Pattern) : Word :=
  patternBits (fun c => match c with | .lit _ => true | .s => false | .t => false | .d => false | .i => false) p

/-- `match`: 1 exactly where the literal is `1` (R75). -/
def Pattern.matchBits (p : Pattern) : Word :=
  patternBits (fun c => match c with | .lit b => b | .s => false | .t => false | .d => false | .i => false) p

/-- The field `rs = iw[25:21]` (R71, R91). -/
def fieldRs (iw : Word) : Reg := (iw.extractLsb' 21 5).toFin
/-- The field `rt = iw[20:16]` (R71, R91). -/
def fieldRt (iw : Word) : Reg := (iw.extractLsb' 16 5).toFin
/-- The field `rd = iw[15:11]` (R71, R91). -/
def fieldRd (iw : Word) : Reg := (iw.extractLsb' 11 5).toFin
/-- The field `imm = iw[15:0]` (R71). -/
def fieldImm (iw : Word) : Half := iw.extractLsb' 0 16

/-- One catalog entry (R27): mnemonic, format, pattern with the `mask` and `match` derived from it, and the routine,
here the instruction occurrence the operand resolver makes of a word (R90). -/
structure Entry where
  mnemonic : String
  format : Format
  pattern : Pattern
  mask : Word
  matchBits : Word
  occurrence : Word → Instr

/-- An entry with `mask` and `match` derived from its pattern (R75). -/
def entry (mnemonic : String) (format : Format) (p : Pattern) (occurrence : Word → Instr) : Entry :=
  { mnemonic, format, pattern := p, mask := Pattern.mask p, matchBits := Pattern.matchBits p, occurrence }

/-- Entries 0 to 13, the arithmetic and logic instructions (R80). -/
def catalogArith : List Entry := [
  entry "ADDI" .I (formatI 0x08 patS patT) fun w => .addi (fieldRt w) (fieldRs w) (fieldImm w),
  entry "SUBI" .I (formatI 0x09 patS patT) fun w => .subi (fieldRt w) (fieldRs w) (fieldImm w),
  entry "MAXMAG" .R (formatR 0x00 patS patT patD 0x01) fun w => .maxmag (fieldRd w) (fieldRs w) (fieldRt w),
  entry "AVG" .R (formatR 0x00 patS patT patD 0x02) fun w => .avg (fieldRd w) (fieldRs w) (fieldRt w),
  entry "XOR" .R (formatR 0x00 patS patT patD 0x03) fun w => .xor (fieldRd w) (fieldRs w) (fieldRt w),
  entry "CMP3" .R (formatR 0x00 patS patT patD 0x04) fun w => .cmp3 (fieldRd w) (fieldRs w) (fieldRt w),
  entry "CLAMP" .R (formatR 0x00 patS zero5 patD 0x05) fun w => .clamp (fieldRd w) (fieldRs w),
  entry "MODNORM" .R (formatR 0x00 patS zero5 patD 0x06) fun w => .modnorm (fieldRd w) (fieldRs w),
  entry "SGNC" .R (formatR 0x00 patS zero5 patD 0x07) fun w => .sgnc (fieldRd w) (fieldRs w),
  entry "BIDX" .R (formatR 0x00 patS patT patD 0x08) fun w => .bidx (fieldRd w) (fieldRs w) (fieldRt w),
  entry "SUMBANK" .R (formatR 0x00 zero5 zero5 patD 0x09) fun w => .sumbank (fieldRd w),
  entry "DRAIN" .R (formatR 0x00 zero5 zero5 patD 0x0A) fun w => .drain (fieldRd w),
  entry "LUI" .I (formatI 0x0F patS patT) fun w => .lui (fieldRt w) (fieldRs w) (fieldImm w),
  entry "ORI" .I (formatI 0x0D patS patT) fun w => .ori (fieldRt w) (fieldRs w) (fieldImm w)]

/-- Entries 14 to 19, control transfer, string and system call (R80). -/
def catalogControl : List Entry := [
  entry "BPOS" .B (formatI 0x05 patS zero5) fun w => .bpos (fieldRs w) (fieldImm w),
  entry "BNEG" .B (formatI 0x06 patS zero5) fun w => .bneg (fieldRs w) (fieldImm w),
  entry "BEQ" .B (formatI 0x04 patS patT) fun w => .beq (fieldRs w) (fieldRt w) (fieldImm w),
  entry "JMP" .B (formatI 0x02 zero5 zero5) fun w => .jmp (fieldImm w),
  entry "PSTR" .B (formatI 0x03 zero5 zero5) fun w => .pstr (fieldImm w),
  entry "SYSCALL" .R (formatR 0x00 zero5 zero5 zero5 0x0C) fun _ => .syscall]

/-- Entries 20 to 24, the drawing instructions (R80). -/
def catalogDraw : List Entry := [
  entry "PIXEL" .R (formatR 0x1C patS patT patD 0x00) fun w => .pixel (fieldRs w) (fieldRt w) (fieldRd w),
  entry "FILLALL" .R (formatR 0x1C patS zero5 zero5 0x01) fun w => .fillall (fieldRs w),
  entry "FILLROW" .R (formatR 0x1C patS patT zero5 0x02) fun w => .fillrow (fieldRs w) (fieldRt w),
  entry "FILLCOL" .R (formatR 0x1C patS patT zero5 0x03) fun w => .fillcol (fieldRs w) (fieldRt w),
  entry "SPRITE" .R (formatR 0x1C patS zero5 zero5 0x04) fun w => .sprite (fieldRs w)]

/-- `CAT`: the 25 entries in registration order (R80). -/
def catalog : List Entry := catalogArith ++ catalogControl ++ catalogDraw

/-- A word matches an entry when its bits under the mask are the entry's (R76). -/
def Entry.accepts (e : Entry) (iw : Word) : Bool := (iw &&& e.mask) == e.matchBits

/-- The matching policy (R77): the least index whose entry matches. -/
def catalogIndex (iw : Word) : Option Nat := catalog.findIdx? (·.accepts iw)

/-- Why a word is not an instruction. -/
inductive DecodeError where
  /-- No catalog entry matches the word (R78, R83). -/
  | noMatch (iw : Word)
deriving DecidableEq, Repr

/-- `Decode`: first match wins, and the resolver makes the occurrence (R77, R90); every other word is `noMatch` (R78). -/
def decode (iw : Word) : Except DecodeError Instr :=
  match catalog.find? (·.accepts iw) with
  | some e => .ok (e.occurrence iw)
  | none => .error (.noMatch iw)

/-- The table word numbered as spec/opcode_table.json numbers it; every instruction is one 32-bit word (R70). -/
def tableWord (nbits w : Nat) : Word := BitVec.ofNat 32 (w % 2 ^ nbits)

/-- The instruction this decoder reads from a table row's word. -/
def decodeTableWord (nbits w : Nat) : Option Instr :=
  match decode (tableWord nbits w) with
  | .ok i => some i
  | .error _ => none

/-! ### The encoder (R96) -/

/-- A register index placed at bit `lo` (R96, `rs << 21` and the like). -/
def placeReg (r : Reg) (lo : Nat) : Word := BitVec.ofNat 32 r.val <<< lo

/-- The field a branch at `pc` to the address `label` carries, `((label - (pc + 4)) / 4) mod 2^16` (R99). -/
def branchField (pc label : Word) : Half := BitVec.ofInt 16 ((label.toNat - (pc.toNat + 4 : Int)) / 4)

/-- The word of `match`, the register fields and the immediate, combined by `|` (R96). -/
def assembleWord (matchBits : Word) (rs rt rd : Reg) (imm : Half) : Word :=
  matchBits ||| placeReg rs 21 ||| placeReg rt 16 ||| placeReg rd 11 ||| imm.zeroExtend 32

/-- `Encode` (R96), with each entry's `match` constant written out from the table of R80; a field the pattern does not
have as a variable contributes 0. -/
def encode : Instr → Word
  | .addi rt rs imm => assembleWord 0x20000000#32 rs rt 0 imm
  | .subi rt rs imm => assembleWord 0x24000000#32 rs rt 0 imm
  | .maxmag rd rs rt => assembleWord 0x00000001#32 rs rt rd 0
  | .avg rd rs rt => assembleWord 0x00000002#32 rs rt rd 0
  | .xor rd rs rt => assembleWord 0x00000003#32 rs rt rd 0
  | .cmp3 rd rs rt => assembleWord 0x00000004#32 rs rt rd 0
  | .clamp rd rs => assembleWord 0x00000005#32 rs 0 rd 0
  | .modnorm rd rs => assembleWord 0x00000006#32 rs 0 rd 0
  | .sgnc rd rs => assembleWord 0x00000007#32 rs 0 rd 0
  | .bidx rd rs rt => assembleWord 0x00000008#32 rs rt rd 0
  | .sumbank rd => assembleWord 0x00000009#32 0 0 rd 0
  | .drain rd => assembleWord 0x0000000A#32 0 0 rd 0
  | .lui rt rs imm => assembleWord 0x3C000000#32 rs rt 0 imm
  | .ori rt rs imm => assembleWord 0x34000000#32 rs rt 0 imm
  | .bpos rs imm => assembleWord 0x14000000#32 rs 0 0 imm
  | .bneg rs imm => assembleWord 0x18000000#32 rs 0 0 imm
  | .beq rs rt imm => assembleWord 0x10000000#32 rs rt 0 imm
  | .jmp ref => assembleWord 0x08000000#32 0 0 0 ref
  | .pstr ref => assembleWord 0x0C000000#32 0 0 0 ref
  | .syscall => assembleWord 0x0000000C#32 0 0 0 0
  | .pixel rs rt rd => assembleWord 0x70000000#32 rs rt rd 0
  | .fillall rs => assembleWord 0x70000001#32 rs 0 0 0
  | .fillrow rs rt => assembleWord 0x70000002#32 rs rt 0 0
  | .fillcol rs rt => assembleWord 0x70000003#32 rs rt 0 0
  | .sprite rs => assembleWord 0x70000004#32 rs 0 0 0

/-- The catalog index of an instruction, in the registration order of R80. -/
def Instr.index : Instr → Nat
  | .addi _ _ _ => 0
  | .subi _ _ _ => 1
  | .maxmag _ _ _ => 2
  | .avg _ _ _ => 3
  | .xor _ _ _ => 4
  | .cmp3 _ _ _ => 5
  | .clamp _ _ => 6
  | .modnorm _ _ => 7
  | .sgnc _ _ => 8
  | .bidx _ _ _ => 9
  | .sumbank _ => 10
  | .drain _ => 11
  | .lui _ _ _ => 12
  | .ori _ _ _ => 13
  | .bpos _ _ => 14
  | .bneg _ _ => 15
  | .beq _ _ _ => 16
  | .jmp _ => 17
  | .pstr _ => 18
  | .syscall => 19
  | .pixel _ _ _ => 20
  | .fillall _ => 21
  | .fillrow _ _ => 22
  | .fillcol _ _ => 23
  | .sprite _ => 24

/-! ### The catalog-construction check (R79) -/

/-- The outcome of a failed construction: the two entries (R79). -/
structure CatalogDefect where
  first : Nat
  second : Nat
deriving DecidableEq, Repr

/-- R79 (a) and (b) for one pair: the same `(mask, match)`, or the same mnemonic. -/
def Entry.clashes (e f : Entry) : Bool :=
  (e.mask == f.mask && e.matchBits == f.matchBits) || e.mnemonic == f.mnemonic

/-- The letter of position `k` lies in the bit range R71 gives its field. -/
def letterInRange (k : Nat) : PatChar → Bool
  | .lit _ => true
  | .s => decide (6 ≤ k ∧ k < 11)
  | .t => decide (11 ≤ k ∧ k < 16)
  | .d => decide (16 ≤ k ∧ k < 21)
  | .i => decide (16 ≤ k)

/-- A variable field fills its whole range or does not occur. -/
def fieldWhole (p : Pattern) (c : PatChar) (width : Nat) : Bool :=
  p.count c == 0 || p.count c == width

/-- R79 for one entry: a pattern of 32 positions, `match & ~mask = 0`, every letter exactly in its range. -/
def Entry.wellFormed (e : Entry) : Bool :=
  e.pattern.length == 32
    && (e.matchBits &&& ~~~e.mask) == 0#32
    && (e.pattern.zipIdx.all fun ck => letterInRange ck.2 ck.1)
    && fieldWhole e.pattern .s 5 && fieldWhole e.pattern .t 5
    && fieldWhole e.pattern .d 5 && fieldWhole e.pattern .i 16

/-- The first entry after index `j` that clashes with `e`. -/
def findClash (e : Entry) : Nat → List Entry → Option Nat
  | _, [] => none
  | k, f :: fs => if e.clashes f then some k else findClash e (k + 1) fs

/-- The construction check from index `j` on: a pair that clashes, or an entry that is ill-formed by itself (reported
as the pair of its index with itself, log 12). -/
def checkFrom : Nat → List Entry → Option CatalogDefect
  | _, [] => none
  | j, e :: es =>
    if !e.wellFormed then some ⟨j, j⟩
    else match findClash e (j + 1) es with
      | some k => some ⟨j, k⟩
      | none => checkFrom (j + 1) es

/-- The construction check of R79; `none` when the catalog passes. -/
def checkCatalog (cat : List Entry) : Option CatalogDefect := checkFrom 0 cat

end Sys2Proof
end

