-- ==== Sys2Proof/Machine/Fetch.lean ====
section
/-! DEFINITION. How a program word comes to stand where the driver fetches (70_reset_and_hazards.md R233, R234), and the
power-up of R230. -/

namespace Sys2Proof.Machine

open Sys2Proof

/-- `IMem` with the word `iw` at address `a`. -/
def placeWord (a iw : Word) (imem : List (Word × Word)) : List (Word × Word) :=
  (a, iw) :: imem.filter fun e => !(e.1 == a)

/-- The largest multiple of 4 not above `a`. -/
def alignDown (a : Word) : Word := wrap32 (u32 a / 4 * 4)

/-- The state with `iw` in `IMem` at the pc, ready to fetch it: a misaligned pc is aligned and the status is Running,
since R234 fetches only then (log 5). -/
def State.loadAtPc (s : State) (iw : Word) : State :=
  { s with
    pc := alignDown s.pc
    status := .running
    outcome := none
    plat := { s.plat with imem := placeWord (alignDown s.pc) iw s.plat.imem } }

/-- R230: construct the catalog, run the construction check once, and only then give the mutable state its launch values;
a defective catalog never accepts a transaction. -/
def powerUp (cat : List Entry) (p : Platform) (x : Vector Word 32) (mem : Memory) : Except CatalogDefect State :=
  match checkCatalog cat with
  | some defect => .error defect
  | none => .ok (State.launch p x mem)

/-- R231: reset applied again during a run gives the launch state on the same platform, with new launch values for the
registers and memory. It is no input of `step` (log 14). -/
def State.resetAgain (s : State) (x : Vector Word 32) (mem : Memory) : State := State.launch s.plat x mem

end Sys2Proof.Machine
end

