-- ==== Sys2Proof/Machine/Step.lean ====
section
/-! DEFINITION. One step of the reference driver (70_reset_and_hazards.md R234). -/

namespace Sys2Proof.Machine

open Sys2Proof

/-- Step (2) of R234: match, resolve, run; a word no entry matches fails with `NoMatch` and no effect (R78). -/
def dispatch (iw : Word) (s : State) : Host.Outcome State Fault Refusal :=
  match decode iw with
  | .ok i => exec i s
  | .error (.noMatch w) => .next (s.raise .noMatch w)

/-- One driver step (R234), defined only while the status is Running (R34) and on a configuration R9 allows (U15):
fetch, dispatch, apply the outcome. -/
def step (s : State) : Host.Outcome State Fault Refusal :=
  match s.status with
  | .terminated => .fault (.notRunning s.status)
  | .failed _ _ => .fault (.notRunning s.status)
  | .running =>
    if s.plat.cfg.wellFormed then
      match s.fetch with
      | none => .next (s.stopFailed .fetchError s.pc)
      | some iw =>
        match dispatch iw s with
        | .next t => .next t.applyOutcome
        | .fault f => .fault f
        | .refused r => .refused r
    else .refused .invalidConfiguration

/-- `s` with the table word placed where `step` fetches its next instruction (log 5). -/
def State.withFetchWord (s : State) (nbits w : Nat) : State := s.loadAtPc (tableWord nbits w)

end Sys2Proof.Machine
end

