-- ==== Sys2Proof/Machine/Run.lean ====
section
/-! DEFINITION. Runs of the reference driver (70_reset_and_hazards.md R235): the step repeated while the status is Running,
to the end state, with the completed instructions counted apart from the final step. -/

namespace Sys2Proof.Machine

open Sys2Proof

/-- Why a bounded run stopped. -/
inductive RunEnd where
  /-- The status is Terminated or Failed (R235). -/
  | ended
  /-- The bound was reached while the status is Running: R235, "a run need not end". -/
  | outOfSteps
  /-- A step answered a fault. -/
  | fault (f : Fault)
  /-- A step was refused. -/
  | refused (r : Refusal)
deriving DecidableEq, Repr

/-- What a bounded run came to: its last state, the number of completed instructions, and why it stopped. -/
structure RunResult where
  state : State
  completed : Nat
  ending : RunEnd
deriving DecidableEq, Repr

/-- 1 for a step that left the status Running, whose outcome was `Next` or `Transfer`; 0 for the final step (R235). -/
def State.completedStep (t : State) : Nat := if t.status = .running then 1 else 0

/-- A run of at most `fuel` steps (R235). -/
def State.runFor : Nat → State → RunResult
  | 0, s => ⟨s, 0, if s.status = .running then .outOfSteps else .ended⟩
  | fuel + 1, s =>
    if s.status = .running then
      match step s with
      | .next t =>
        let r := State.runFor fuel t
        { r with completed := t.completedStep + r.completed }
      | .fault f => ⟨s, 0, .fault f⟩
      | .refused r => ⟨s, 0, .refused r⟩
    else ⟨s, 0, .ended⟩

/-- `RunsTo s n e`: the run from the running state `s` ends in `e`, after `n` completed instructions and the final step
that made the status Terminated or Failed (R235). -/
inductive RunsTo : State → Nat → State → Prop where
  | final {s e : State} (h : step s = .next e) (stopped : e.status ≠ .running) : RunsTo s 0 e
  | completed {s t e : State} {n : Nat} (h : step s = .next t) (running : t.status = .running) (rest : RunsTo t n e) :
    RunsTo s (n + 1) e

end Sys2Proof.Machine
end

