-- ==== Sys2Proof/Safety.lean ====
section
/-! DEFINITION. What claims speak of: the invariant of a machine between two steps, the frames of the instruction families,
strings in memory, and the word writes a drawing instruction generates. -/

namespace Sys2Proof

open Sys2Proof.Machine

/-! ### Platforms and families of instructions -/

/-- Every JMP word of the program whose reference is known resolves to a multiple of 4 (R237 (1)). A PSTR label may be odd. -/
def Platform.JumpsAligned (p : Platform) : Prop :=
  ∀ (at' iw : Word) (ref : Half) (target : Word), lookupKey at' p.imem = some iw → decode iw = .ok (.jmp ref) →
    lookupKey ref p.symTab = some target → u32 target % 4 = 0

/-- Every row `SPRITE_BASE_Y + dy` of the sprite table is a signed 32-bit number, so that reading it as a 32-bit pattern
changes nothing (R172, R180, log 15). -/
def Config.spriteRowsFit (c : Config) : Prop :=
  ∀ e ∈ c.spriteTable, -2147483648 ≤ c.spriteBaseY + e.dy ∧ c.spriteBaseY + e.dy ≤ 2147483647

/-- The platform makes every byte of the framebuffer region valid, and the configuration is one R9 allows (R41). -/
def Platform.CanDraw (p : Platform) : Prop :=
  p.cfg.wellFormed = true ∧
    ∀ a, u32 p.cfg.fbBase ≤ a → a < u32 p.cfg.fbBase + 0x100000 → validByte p a = true

/-- The instructions that draw (43_framebuffer.md). -/
def Instr.draws : Instr → Bool
  | .pixel _ _ _ => true
  | .fillall _ => true
  | .fillrow _ _ => true
  | .fillcol _ _ => true
  | .sprite _ => true
  | .addi _ _ _ => false
  | .subi _ _ _ => false
  | .maxmag _ _ _ => false
  | .avg _ _ _ => false
  | .xor _ _ _ => false
  | .cmp3 _ _ _ => false
  | .clamp _ _ => false
  | .modnorm _ _ => false
  | .sgnc _ _ => false
  | .bidx _ _ _ => false
  | .sumbank _ => false
  | .drain _ => false
  | .lui _ _ _ => false
  | .ori _ _ _ => false
  | .bpos _ _ => false
  | .bneg _ _ => false
  | .beq _ _ _ => false
  | .jmp _ => false
  | .pstr _ => false
  | .syscall => false

/-- The instructions of the arithmetic and logic family (40_arith_logic.md), the only ones that write a register (R22). -/
def Instr.isArith : Instr → Bool
  | .addi _ _ _ => true
  | .subi _ _ _ => true
  | .maxmag _ _ _ => true
  | .avg _ _ _ => true
  | .xor _ _ _ => true
  | .cmp3 _ _ _ => true
  | .clamp _ _ => true
  | .modnorm _ _ => true
  | .sgnc _ _ => true
  | .bidx _ _ _ => true
  | .sumbank _ => true
  | .drain _ => true
  | .lui _ _ _ => true
  | .ori _ _ _ => true
  | .bpos _ _ => false
  | .bneg _ _ => false
  | .beq _ _ _ => false
  | .jmp _ => false
  | .pstr _ => false
  | .syscall => false
  | .pixel _ _ _ => false
  | .fillall _ => false
  | .fillrow _ _ => false
  | .fillcol _ _ => false
  | .sprite _ => false

end Sys2Proof

namespace Sys2Proof.Machine

open Sys2Proof

/-! ### The invariant of a machine between two steps -/

/-- Memory lists bytes at valid addresses only: no other byte exists (R26, R40). -/
def Memory.inside (p : Platform) (m : Memory) : Bool := m.all fun e => validByte p e.1

/-- What holds of a machine between two steps: memory is canonical and lists existing bytes only, no outcome waits to be
applied (R35), and a hard-wired register 0 is stored as zero (R21). -/
def State.Inv (s : State) : Prop :=
  s.mem.wf = true ∧ s.mem.inside s.plat = true ∧ s.outcome = none ∧
    (s.plat.cfg.reg0Zero = true → s.x[0] = 0#32)

/-- The pc is a multiple of 4 (R24). -/
def State.PcAligned (s : State) : Prop := u32 s.pc % 4 = 0

/-- A run in which nothing has failed: the step completes and the driver has not stopped on a failure (R206). -/
def State.StepsSafely (s : State) : Prop :=
  ∃ t, step s = .next t ∧ ∀ kind info, t.status ≠ .failed kind info

/-! ### The bank -/

/-- The bank of R22: the registers whose index lies in `[BANK_BASE, BANK_BASE + 7]`. -/
def bankRegisters (c : Config) : List Reg :=
  (List.finRange 32).filter fun r => decide (c.bankBase ≤ r.val ∧ r.val < c.bankBase + 8)

/-! ### Frames -/

/-- Everything but registers, memory, output and outcome is as before: no routine writes the pc, the status or the
platform (R23, R36). -/
def SameDriver (s t : State) : Prop := t.pc = s.pc ∧ t.status = s.status ∧ t.plat = s.plat

/-- Every register reads as before. -/
def SameRegs (s t : State) : Prop := ∀ r, t.readReg r = s.readReg r

/-- Every byte of memory reads as before. -/
def SameMemory (s t : State) : Prop := ∀ a, t.mem.read a = s.mem.read a

/-- The instruction completed with `v` in register `rd` and nothing else changed; a hard-wired `rd` stays as it is (R21, R110). -/
def RegisterResult (s t : State) (rd : Reg) (v : Word) : Prop :=
  (∀ r, t.readReg r = if r = rd ∧ s.hardwired rd = false then v else s.readReg r) ∧
    t.mem = s.mem ∧ t.out = s.out ∧ SameDriver s t ∧ t.outcome = some .next

/-- The catalog entry the matcher selects for an instruction's word is number `k`, with the format tag `f` (R77, R80). -/
def EncodedAt (i : Instr) (k : Nat) (f : Format) : Prop :=
  catalogIndex (encode i) = some k ∧ (catalog[k]?).map (·.format) = some f

/-! ### Strings (R156) -/

/-- From address `a` on stand the non-zero bytes `bs` and then a zero byte, all valid; addresses wrap. -/
def StringAt (s : State) : Word → List Byte → Prop
  | a, [] => s.memRead a = some 0#8
  | a, b :: bs => s.memRead a = some b ∧ b ≠ 0#8 ∧ StringAt s (a + 1#32) bs

/-- From address `a` on stand the non-zero valid bytes `bs`, and the address after them, `bad`, is invalid. -/
def BrokenStringAt (s : State) : Word → List Byte → Word → Prop
  | a, [], bad => a = bad ∧ s.memRead a = none
  | a, b :: bs, bad => s.memRead a = some b ∧ b ≠ 0#8 ∧ BrokenStringAt s (a + 1#32) bs bad

/-- The number a list of ASCII digits spells, most significant first (R159). -/
def digitsValue (ds : List Byte) : Nat := ds.foldl (fun n d => 10 * n + (d.toNat - 0x30)) 0

/-! ### Word writes -/

/-- The memory after a list of word writes `(address, value)`, in order. -/
def Memory.writeWords (m : Memory) (ws : List (Word × Word)) : Memory :=
  ws.foldl (fun m w => m.writeWord (u32 w.1) w.2) m

/-- The word write a pixel asks for: one in bounds, none out of bounds (R173). -/
def pixelWrites (c : Config) (x y colour : Word) : List (Word × Word) :=
  if inBounds x y then [(pixelAddr c (s32 x).toNat (s32 y).toNat, colour)] else []

/-- The word writes of a whole-grid fill, rows outer (R177, R181). -/
def gridWrites (c : Config) (colour : Word) : List (Word × Word) :=
  (List.range 512).flatMap fun y => (List.range 512).map fun x => (pixelAddr c x y, colour)

/-- The word writes of a row fill: the 512 words of row `y`, or none for a row outside the grid (R178, R181). -/
def rowWrites (c : Config) (y colour : Word) : List (Word × Word) :=
  if 0 ≤ s32 y ∧ s32 y < 512 then (List.range 512).map fun x => (pixelAddr c x (s32 y).toNat, colour) else []

/-- The word writes of a column fill: the 512 words of column `x`, or none for a column outside the grid (R179, R181). -/
def colWrites (c : Config) (x colour : Word) : List (Word × Word) :=
  if 0 ≤ s32 x ∧ s32 x < 512 then (List.range 512).map fun y => (pixelAddr c (s32 x).toNat y, colour) else []

/-- The word writes of the sprite: each table entry on its own, those in bounds, in table order (R180, R181). The row is
reduced modulo 2^32 as the column is (DEDUCED, log 15). -/
def spriteWrites (c : Config) (xo : Word) : List (Word × Word) :=
  c.spriteTable.flatMap fun e => pixelWrites c (wrap32 (s32 xo + e.dx)) (wrap32 (c.spriteBaseY + e.dy)) e.colour

/-- The word writes of the sprite as R180 writes its pixels: column `wrap32(xo + dx)`, row `SPRITE_BASE_Y + dy` over the
integers, those in `[0, 512) x [0, 512)`, in table order. -/
def spritePixels (c : Config) (xo : Word) : List (Word × Word) :=
  c.spriteTable.flatMap fun e =>
    let x := (xo + BitVec.ofInt 32 e.dx).toInt
    let y := c.spriteBaseY + e.dy
    if (0 ≤ x ∧ x < 512) ∧ 0 ≤ y ∧ y < 512 then [(pixelAddr c x.toNat y.toNat, e.colour)] else []

/-- What a drawing instruction does with its word writes (R175): it performs them in order; it completes when every one is
to a valid word, and otherwise stops at the first that is not, with `Fail(AddressError, addr)` and the earlier words
written. Registers, output and the driver's state stay. -/
def PaintResult (s t : State) (ws : List (Word × Word)) : Prop :=
  SameRegs s t ∧ t.out = s.out ∧ SameDriver s t ∧
    ∃ done rest, ws = done ++ rest ∧ (∀ w ∈ done, validWord s.plat (u32 w.1) = true) ∧
      t.mem = s.mem.writeWords done ∧
      ((rest = [] ∧ t.outcome = some .next) ∨
        ∃ w tail, rest = w :: tail ∧ validWord s.plat (u32 w.1) = false ∧
          t.outcome = some (.fail .addressError w.1))

/-- The byte address of pixel `(x, y)` (R171): `FB_BASE + (y * 512 + x) * 4`. -/
def pixelByte (c : Config) (x y : Nat) : Nat := u32 c.fbBase + (y * 512 + x) * 4

/-- The instruction completed, and the four bytes of exactly the pixels of `inside` are those of `colour`; every other
byte of memory, and everything but memory, is as before. -/
def PaintedPixels (s t : State) (inside : Nat → Nat → Prop) (colour : Word) : Prop :=
  SameRegs s t ∧ t.out = s.out ∧ SameDriver s t ∧ t.outcome = some .next ∧
    (∀ x y, x < 512 → y < 512 → inside x y →
      ∀ k, k < 4 → t.mem.read (pixelByte s.plat.cfg x y + k) = byteOf colour k) ∧
    ∀ a, (∀ x y k, x < 512 → y < 512 → inside x y → k < 4 → a ≠ pixelByte s.plat.cfg x y + k) →
      t.mem.read a = s.mem.read a

/-! ### Where an instruction can fail -/

/-- The word writes an instruction asks for in a state, in the order it performs them (R51, R176 to R180; SPRITE's
rows as in log 15). -/
def wordWritesOf : Instr → State → List (Word × Word)
  | .pixel rs rt rd, s => pixelWrites s.plat.cfg (s.readReg rs) (s.readReg rt) (s.readReg rd)
  | .fillall rs, s => gridWrites s.plat.cfg (s.readReg rs)
  | .fillrow rs rt, s => rowWrites s.plat.cfg (s.readReg rs) (s.readReg rt)
  | .fillcol rs rt, s => colWrites s.plat.cfg (s.readReg rs) (s.readReg rt)
  | .sprite rs, s => spriteWrites s.plat.cfg (s.readReg rs)
  | .addi _ _ _, _ => []
  | .subi _ _ _, _ => []
  | .maxmag _ _ _, _ => []
  | .avg _ _ _, _ => []
  | .xor _ _ _, _ => []
  | .cmp3 _ _ _, _ => []
  | .clamp _ _, _ => []
  | .modnorm _ _, _ => []
  | .sgnc _ _, _ => []
  | .bidx _ _ _, _ => []
  | .sumbank _, _ => []
  | .drain _, _ => []
  | .lui _ _ _, _ => []
  | .ori _ _ _, _ => []
  | .bpos _ _, _ => []
  | .bneg _ _, _ => []
  | .beq _ _ _, _ => []
  | .jmp _, _ => []
  | .pstr _, _ => []
  | .syscall, _ => []

/-- Where an instruction begins to print a string, if it prints one: PSTR at a known label, SYSCALL with the print-string
service (R157, R158). -/
def stringStartOf : Instr → State → Option Word
  | .pstr ref, s => lookupKey ref s.plat.symTab
  | .syscall, s =>
    if s32 (s.readReg s.plat.cfg.sysSelReg) ≠ s.plat.cfg.svcPrintInt ∧
        s32 (s.readReg s.plat.cfg.sysSelReg) = s.plat.cfg.svcPrintStr then some (s.readReg s.plat.cfg.sysArgReg)
    else none
  | .addi _ _ _, _ => none
  | .subi _ _ _, _ => none
  | .maxmag _ _ _, _ => none
  | .avg _ _ _, _ => none
  | .xor _ _ _, _ => none
  | .cmp3 _ _ _, _ => none
  | .clamp _ _, _ => none
  | .modnorm _ _, _ => none
  | .sgnc _ _, _ => none
  | .bidx _ _ _, _ => none
  | .sumbank _, _ => none
  | .drain _, _ => none
  | .lui _ _ _, _ => none
  | .ori _ _ _, _ => none
  | .bpos _ _, _ => none
  | .bneg _ _, _ => none
  | .beq _ _ _, _ => none
  | .jmp _, _ => none
  | .pixel _ _ _, _ => none
  | .fillall _, _ => none
  | .fillrow _ _, _ => none
  | .fillcol _ _, _ => none
  | .sprite _, _ => none

/-- The drawing stopped at the first of its word writes that is to an invalid word, at `bad`: the writes before it are
performed, and nothing is printed (R175, R208). -/
def StoppedDrawing (i : Instr) (s t : State) (bad : Word) : Prop :=
  ∃ done w rest, wordWritesOf i s = done ++ w :: rest ∧ (∀ v ∈ done, validWord s.plat (u32 v.1) = true) ∧
    validWord s.plat (u32 w.1) = false ∧ w.1 = bad ∧ t.mem = s.mem.writeWords done ∧ t.out = s.out

/-- The printing stopped at the first invalid byte, at `bad`: the bytes before it are emitted, and memory is as before
(R156, R208). -/
def StoppedPrinting (i : Instr) (s t : State) (bad : Word) : Prop :=
  ∃ a bs, stringStartOf i s = some a ∧ BrokenStringAt s a bs bad ∧ t.mem = s.mem ∧ t.out = s.out ++ bs

end Sys2Proof.Machine
end

