-- ==== Sys2Proof/Certificates/Slice0/Obligations.lean ====
section
/-! DEFINITION. The statements for the provers, from the numbered rules of spec/. Every name below is one obligation; each
docstring names the rule it formalises. -/

open Sys2Proof Sys2Proof.Machine

/-! ### Encoding, matching and the catalog (30_encoding.md) -/

/-- A few words written out from the table of R80 decode to what they stand for; a sanity statement. -/
def Obligations.CatalogWordsDecodeAsWritten : Prop :=
  decodeTableWord 32 0x2109FFFF = some (.addi 9 8 0xFFFF#16) ∧
  decodeTableWord 32 0x01095001 = some (.maxmag 10 8 9) ∧
  decodeTableWord 32 0x01005005 = some (.clamp 10 8) ∧
  decodeTableWord 32 0x0000800A = some (.drain 16) ∧
  decodeTableWord 32 0x3FE88000 = some (.lui 8 31 0x8000#16) ∧
  decodeTableWord 32 0x1900FFFE = some (.bneg 8 0xFFFE#16) ∧
  decodeTableWord 32 0x08000003 = some (.jmp 3#16) ∧
  decodeTableWord 32 0x0C000001 = some (.pstr 1#16) ∧
  decodeTableWord 32 0x0000000C = some .syscall ∧
  decodeTableWord 32 0x71095000 = some (.pixel 8 9 10) ∧
  decodeTableWord 32 0x71090003 = some (.fillcol 8 9) ∧
  decodeTableWord 32 0x00210005 = none

/-- R96 (marked `[derived]` in the spec): "For every entry `Decode(Encode(k, fields)) = k` and the resolver returns the same fields." -/
def Obligations.EncodeThenDecodeIsIdentity : Prop :=
  ∀ i : Instr, decode (encode i) = .ok i

/-- No bit of a matched word is dropped: unused fields are literal zeros (R83) and LUI's ignored `rs` is kept in the instruction (R97; the model's choice, log 13). -/
def Obligations.DecodeThenEncodeIsIdentity : Prop :=
  ∀ (w : Word) (i : Instr), decode w = .ok i → encode i = w

/-- R81 (marked `[derived]` in the spec): "The 25 patterns are pairwise disjoint". -/
def Obligations.AtMostOneEntryMatches : Prop :=
  ∀ (w : Word) (j k : Nat) (e f : Entry), catalog[j]? = some e → catalog[k]? = some f →
    w &&& e.mask = e.matchBits → w &&& f.mask = f.matchBits → j = k

/-- R76 and R77: mask-and-compare, and the least matching index wins. -/
def Obligations.MatcherSelectsTheFirstMatch : Prop :=
  (∀ (e : Entry) (w : Word), e.accepts w = true ↔ w &&& e.mask = e.matchBits) ∧
  (∀ (w : Word) (k : Nat), catalogIndex w = some k ↔
    (∃ e, catalog[k]? = some e ∧ w &&& e.mask = e.matchBits) ∧
      ∀ j e, j < k → catalog[j]? = some e → w &&& e.mask ≠ e.matchBits) ∧
  ∀ (w : Word) (i : Instr), decode w = .ok i ↔
    ∃ k e, catalogIndex w = some k ∧ catalog[k]? = some e ∧ e.occurrence w = i

/-- The constants derived from the patterns are the table's; a sanity statement. -/
def Obligations.CatalogHasTheTablesMasks : Prop :=
  catalog.map (·.mnemonic) = (["ADDI", "SUBI", "MAXMAG", "AVG", "XOR", "CMP3", "CLAMP", "MODNORM", "SGNC",
      "BIDX", "SUMBANK", "DRAIN", "LUI", "ORI", "BPOS", "BNEG", "BEQ", "JMP",
      "PSTR", "SYSCALL", "PIXEL", "FILLALL", "FILLROW", "FILLCOL", "SPRITE"] : List String) ∧
  catalog.map (·.format) = ([.I, .I, .R, .R, .R, .R, .R, .R, .R, .R, .R, .R, .I, .I, .B, .B, .B, .B, .B, .R, .R, .R, .R, .R, .R] : List Format) ∧
  catalog.map (·.mask) = ([0xFC000000#32, 0xFC000000#32, 0xFC0007FF#32, 0xFC0007FF#32, 0xFC0007FF#32, 0xFC0007FF#32, 0xFC1F07FF#32,
      0xFC1F07FF#32, 0xFC1F07FF#32, 0xFC0007FF#32, 0xFFFF07FF#32, 0xFFFF07FF#32, 0xFC000000#32, 0xFC000000#32,
      0xFC1F0000#32, 0xFC1F0000#32, 0xFC000000#32, 0xFFFF0000#32, 0xFFFF0000#32, 0xFFFFFFFF#32, 0xFC0007FF#32,
      0xFC1FFFFF#32, 0xFC00FFFF#32, 0xFC00FFFF#32, 0xFC1FFFFF#32] : List Word) ∧
  catalog.map (·.matchBits) = ([0x20000000#32, 0x24000000#32, 0x00000001#32, 0x00000002#32, 0x00000003#32, 0x00000004#32, 0x00000005#32,
      0x00000006#32, 0x00000007#32, 0x00000008#32, 0x00000009#32, 0x0000000A#32, 0x3C000000#32, 0x34000000#32,
      0x14000000#32, 0x18000000#32, 0x10000000#32, 0x08000000#32, 0x0C000000#32, 0x0000000C#32, 0x70000000#32,
      0x70000001#32, 0x70000002#32, 0x70000003#32, 0x70000004#32] : List Word)

/-- R75 and R79. That an entry ill-formed by itself is reported as the pair (j, j) is the model's choice (log 12) and not stated here. -/
def Obligations.ConstructionCheckIsExact : Prop :=
  (∀ (p : Pattern) (k : Nat), p.length = 32 → k < 32 →
    ((Pattern.mask p).getLsbD (31 - k) = true ↔ ∃ b, p[k]? = some (PatChar.lit b)) ∧
    ((Pattern.matchBits p).getLsbD (31 - k) = true ↔ p[k]? = some (PatChar.lit true))) ∧
  (∀ e ∈ catalog, e.mask = Pattern.mask e.pattern ∧ e.matchBits = Pattern.matchBits e.pattern) ∧
  (∀ cat : List Entry, checkCatalog cat = none ↔
    (∀ (j k : Nat) (e f : Entry), j < k → cat[j]? = some e → cat[k]? = some f →
      (e.mask, e.matchBits) ≠ (f.mask, f.matchBits) ∧ e.mnemonic ≠ f.mnemonic) ∧
    ∀ e ∈ cat, e.pattern.length = 32 ∧ e.matchBits &&& ~~~e.mask = 0#32 ∧
      ∀ z ∈ [(PatChar.s, 6, 11), (PatChar.t, 11, 16), (PatChar.d, 16, 21), (PatChar.i, 16, 32)],
        (∀ k : Nat, e.pattern[k]? ≠ some z.1) ∨
          ∀ k : Nat, e.pattern[k]? = some z.1 ↔ z.2.1 ≤ k ∧ k < z.2.2) ∧
  (∀ (cat : List Entry) (j k : Nat), checkCatalog cat = some ⟨j, k⟩ → j < k →
    ∃ e f, cat[j]? = some e ∧ cat[k]? = some f ∧
      ((e.mask, e.matchBits) = (f.mask, f.matchBits) ∨ e.mnemonic = f.mnemonic)) ∧
  (∀ cat p x m d, checkCatalog cat = some d → powerUp cat p x m = .error d) ∧
  checkCatalog catalog = none

/-- R230 (1) to (4). -/
def Obligations.PowerUpChecksThenLaunches : Prop :=
  (∀ e ∈ catalog, e.mask = Pattern.mask e.pattern ∧ e.matchBits = Pattern.matchBits e.pattern) ∧
  (∀ cat p x m d, checkCatalog cat = some d → powerUp cat p x m = .error d) ∧
  (∀ cat p x m, checkCatalog cat = none → powerUp cat p x m = .ok (State.launch p x m)) ∧
  (∀ p x m, powerUp catalog p x m = .ok (State.launch p x m) ∧ (State.launch p x m).pc = p.cfg.pcReset)

/-! ### The driver (10_state.md, 60_exceptions.md, 70_reset_and_hazards.md) -/

/-- R234 (1) and (2). What applying the outcome does is `DriverStepFollowsTheRule`. -/
def Obligations.StepRunsTheDecodedInstruction : Prop :=
  ∀ (s : State) (iw : Word) (i : Instr), s.status = .running → s.plat.cfg.wellFormed = true →
    u32 s.pc % 4 = 0 → lookupKey s.pc s.plat.imem = some iw → decode iw = .ok i →
    step s = match exec i s with
      | .next t => .next t.applyOutcome
      | .fault f => .fault f
      | .refused r => .refused r

/-- R234. The dispatch of a word is `dispatch` (matcher, resolver, routine); the pending outcome is consumed. -/
def Obligations.DriverStepFollowsTheRule : Prop :=
  (∀ s : State, s.status ≠ .running → ∀ t, step s ≠ .next t) ∧
  ∀ s : State, s.status = .running → s.plat.cfg.wellFormed = true →
    ((u32 s.pc % 4 ≠ 0 ∨ lookupKey s.pc s.plat.imem = none) →
      step s = .next { s with status := .failed .fetchError s.pc, outcome := none }) ∧
    ∀ (iw : Word) (t : State), u32 s.pc % 4 = 0 → lookupKey s.pc s.plat.imem = some iw → dispatch iw s = .next t →
      t.pc = s.pc ∧
      (t.outcome = some .next → step s = .next { t with pc := s.pc + 4#32, outcome := none }) ∧
      (∀ a, t.outcome = some (.transfer a) → step s = .next { t with pc := a, outcome := none }) ∧
      (t.outcome = some .terminate → step s = .next { t with status := .terminated, outcome := none }) ∧
      ∀ kind info, t.outcome = some (.fail kind info) →
        step s = .next { t with status := .failed kind info, outcome := none }

/-- R205. -/
def Obligations.FetchFailureStopsTheDriver : Prop :=
  ∀ s : State, s.status = .running → s.plat.cfg.wellFormed = true →
    (u32 s.pc % 4 ≠ 0 ∨ lookupKey s.pc s.plat.imem = none) →
    step s = .next { s with status := .failed .fetchError s.pc, outcome := none }

/-- R78. -/
def Obligations.UnmatchedWordFailsWithNoMatch : Prop :=
  ∀ w : Word,
    ((∃ i, decode w = .ok i) ∨ decode w = .error (.noMatch w)) ∧
    (decode w = .error (.noMatch w) ↔ ∀ e ∈ catalog, w &&& e.mask ≠ e.matchBits) ∧
    ((∀ e ∈ catalog, w &&& e.mask ≠ e.matchBits) →
      ∀ s : State, dispatch w s = .next { s with outcome := some (.fail .noMatch w) })

/-- R34, both ways. -/
def Obligations.StatusFollowsTheOutcomes : Prop :=
  (∀ p x m, (State.launch p x m).status = .running) ∧
  (∀ s t : State, step s = .next t →
    (t.status = .terminated ↔
      ∃ iw u, s.fetch = some iw ∧ dispatch iw s = .next u ∧ u.outcome = some .terminate) ∧
    ∀ kind info, t.status = .failed kind info ↔
      (s.fetch = none ∧ kind = .fetchError ∧ info = s.pc) ∨
        ∃ iw u, s.fetch = some iw ∧ dispatch iw s = .next u ∧ u.outcome = some (.fail kind info)) ∧
  ∀ s : State, s.status ≠ .running → ∀ t, step s ≠ .next t

/-- U15: "`refuse`: the configuration is invalid; no rule covers it". Where the refusal is made (at each step) is the model's choice (log 11). -/
def Obligations.InvalidConfigurationIsRefused : Prop :=
  ∀ s : State, s.status = .running →
    (step s = .refused .invalidConfiguration ↔
      ¬ (u32 s.plat.cfg.fbBase % 4 = 0 ∧ u32 s.plat.cfg.fbBase + 0x100000 ≤ 4294967296 ∧ s.plat.cfg.bankBase ≤ 24))

/-- R200 and every column of its table but "meaning". For SPRITE the write that fails first is named where its rows are signed 32-bit numbers (see log 15 for the others). -/
def Obligations.EachOutcomeComesFromItsInstructions : Prop :=
  (∀ (i : Instr) (s t : State), exec i s = .next t → ∃ outcome, t.outcome = some outcome ∧
    match outcome with
    | .next => (∀ ref, i ≠ .jmp ref) ∧
        (∀ rs imm, i = .bpos rs imm → ¬ 0 < (s.readReg rs).toInt) ∧
        (∀ rs imm, i = .bneg rs imm → ¬ (s.readReg rs).toInt < 0) ∧
        (∀ rs rt imm, i = .beq rs rt imm → s.readReg rs ≠ s.readReg rt) ∧
        (i = .syscall → (s.readReg s.plat.cfg.sysSelReg).toInt = s.plat.cfg.svcPrintInt ∨
          (s.readReg s.plat.cfg.sysSelReg).toInt = s.plat.cfg.svcPrintStr)
    | .transfer a =>
        (∃ imm : Half, a = s.pc + 4#32 + 4#32 * imm.signExtend 32 ∧
          ((∃ rs, i = .bpos rs imm ∧ 0 < (s.readReg rs).toInt) ∨ (∃ rs, i = .bneg rs imm ∧ (s.readReg rs).toInt < 0) ∨
            ∃ rs rt, i = .beq rs rt imm ∧ s.readReg rs = s.readReg rt)) ∨
        ∃ ref, i = .jmp ref ∧ lookupKey ref s.plat.symTab = some a
    | .terminate => i = .syscall ∧ (s.readReg s.plat.cfg.sysSelReg).toInt = s.plat.cfg.svcExit ∧
        (s.readReg s.plat.cfg.sysSelReg).toInt ≠ s.plat.cfg.svcPrintInt ∧
        (s.readReg s.plat.cfg.sysSelReg).toInt ≠ s.plat.cfg.svcPrintStr
    | .fail .addressError info =>
        (((∃ ref, i = .pstr ref) ∨ (i = .syscall ∧ (s.readReg s.plat.cfg.sysSelReg).toInt = s.plat.cfg.svcPrintStr)) ∧
          s.memRead info = none ∧ StoppedPrinting i s t info) ∨
        (i.draws = true ∧ validWord s.plat (u32 info) = false ∧
          ((∃ rs, i = .sprite rs) → s.plat.cfg.spriteRowsFit → StoppedDrawing i s t info) ∧
          ((∀ rs, i ≠ .sprite rs) → StoppedDrawing i s t info))
    | .fail .unsupportedOperation info => i = .syscall ∧ info = s.readReg s.plat.cfg.sysSelReg ∧
        info.toInt ≠ s.plat.cfg.svcPrintInt ∧ info.toInt ≠ s.plat.cfg.svcPrintStr ∧ info.toInt ≠ s.plat.cfg.svcExit
    | .fail .unresolvedSymbol info => ∃ ref, (i = .jmp ref ∨ i = .pstr ref) ∧ info = ref.zeroExtend 32 ∧
        lookupKey ref s.plat.symTab = none
    | .fail .noMatch _ => False
    | .fail .fetchError _ => False) ∧
  (∀ (w : Word) (s t : State), dispatch w s = .next t → ∃ outcome, t.outcome = some outcome ∧
    (∀ info, outcome = .fail .noMatch info → info = w ∧ ∀ e ∈ catalog, w &&& e.mask ≠ e.matchBits) ∧
    ∀ info, outcome ≠ .fail .fetchError info) ∧
  (∀ (s t : State) (info : Word), step s = .next t → t.status = .failed .fetchError info →
    info = s.pc ∧ (u32 s.pc % 4 ≠ 0 ∨ lookupKey s.pc s.plat.imem = none)) ∧
  DispatchOutcome.next.code = 0 ∧ (∀ a, (DispatchOutcome.transfer a).code = 1 ∧ (DispatchOutcome.transfer a).info = some a) ∧
  DispatchOutcome.terminate.code = 2 ∧ DispatchOutcome.next.info = none ∧ DispatchOutcome.terminate.info = none ∧
  (∀ kind info, (DispatchOutcome.fail kind info).code = kind.code ∧ (DispatchOutcome.fail kind info).info = some info) ∧
  FailKind.addressError.code = 3 ∧ FailKind.unsupportedOperation.code = 4 ∧ FailKind.noMatch.code = 5 ∧
  FailKind.unresolvedSymbol.code = 6 ∧ FailKind.fetchError.code = 7

/-- R23: "semantics routines never mutate the program counter themselves", and DDFB "reads `pc` only to compute branch targets"; R36 for the platform. -/
def Obligations.RoutinesNeverTouchTheDriver : Prop :=
  (∀ (i : Instr) (s t : State), exec i s = .next t → t.pc = s.pc ∧ t.status = s.status ∧ t.plat = s.plat) ∧
  ∀ (i : Instr) (s : State) (p : Word), (∀ rs imm, i ≠ .bpos rs imm ∧ i ≠ .bneg rs imm) →
    (∀ rs rt imm, i ≠ .beq rs rt imm) →
    exec i { s with pc := p } = match exec i s with
      | .next t => .next { t with pc := p }
      | .fault f => .fault f
      | .refused r => .refused r

/-- The launch values of State.reset are the model's choices (log 1, 2, 4); the second clause is for every launch. -/
def Obligations.InvariantHoldsAtLaunch : Prop :=
  State.reset.Inv ∧
  ∀ p x (m : Memory), m.wf = true → m.inside p = true → (State.launch p x m).Inv

/-- The canonical form of memory is the model's representation (log 1); the rest is R21, R31, R35, R40. -/
def Obligations.EveryStepKeepsTheInvariant : Prop :=
  ∀ s t : State, s.Inv → step s = .next t → t.Inv

/-- R35's table. The launch parameters are quantified over, as the rule asks; the values State.reset gives them are the model's (log 1, 2, 4, 5) and not stated here. -/
def Obligations.LaunchStateIsTheTableOfReset : Prop :=
  ∀ (p : Platform) (x : Vector Word 32) (m : Memory),
    (State.launch p x m).out = [] ∧ (State.launch p x m).pc = p.cfg.pcReset ∧ ({} : Config).pcReset = 0x00400000#32 ∧
    (State.launch p x m).status = .running ∧ (State.launch p x m).outcome = none ∧
    (State.launch p x m).mem = m ∧ (State.launch p x m).plat = p ∧
    (∀ r : Reg, r ≠ 0 → (State.launch p x m).readReg r = x[r]) ∧
    (State.launch p x m).readReg 0 = (if p.cfg.reg0Zero then 0#32 else x[(0 : Reg)]) ∧
    checkCatalog catalog = none

/-- R36, R54 ("no `MemWrite` ever changes the word a later fetch returns"), R30, R40. -/
def Obligations.PlatformNeverChanges : Prop :=
  ∀ s t : State, step s = .next t → t.plat = s.plat

/-- R235, from every state, the launch states among them. `RunsTo` is the run that ends, `State.runFor` the run of at most so many steps. -/
def Obligations.RunRepeatsTheStepUntilItEnds : Prop :=
  (∀ s e n, RunsTo s n e →
    (e.status = .terminated ∨ ∃ kind info, e.status = .failed kind info) ∧ (∀ u, step e ≠ .next u) ∧
      ∀ e' n', RunsTo s n' e' → e' = e ∧ n' = n) ∧
  (∀ (s e : State) (n : Nat), s.status = .running →
    (RunsTo s n e ↔ ∀ fuel, n < fuel → s.runFor fuel = ⟨e, n, .ended⟩)) ∧
  (∀ s t : State, step s = .next t → (t.completedStep = 1 ↔
      ∃ iw u, s.fetch = some iw ∧ dispatch iw s = .next u ∧
        (u.outcome = some .next ∨ ∃ a, u.outcome = some (.transfer a))) ∧
    (t.completedStep = 0 ↔ t.status = .terminated ∨ ∃ kind info, t.status = .failed kind info)) ∧
  (∀ s : State, s.status = .running → s.plat.cfg.wellFormed = true → u32 s.pc % 4 = 0 →
    lookupKey s.pc s.plat.imem = some 0x1108FFFF#32 → step s = .next { s with outcome := none } ∧ ∀ n e, ¬ RunsTo s n e) ∧
  ∀ (s : State) (iw : Word), s.status = .running → s.plat.cfg.wellFormed = true → s.fetch = some iw →
    dispatch iw s = .fault .stringNeverEnds → (∀ t, step s ≠ .next t) ∧ ∀ n e, ¬ RunsTo s n e

/-- R24: "branch targets are multiples of 4 whenever `pc` is"; a JMP target is unchecked, hence the premise, which R237 (1) asks of the platform: "with JMP targets that are multiples of 4". -/
def Obligations.AlignedJumpLabelsKeepThePcAligned : Prop :=
  ∀ s t : State, s.plat.JumpsAligned → s.PcAligned → step s = .next t → t.plat.JumpsAligned ∧ t.PcAligned

/-- A rule about the whole machine: the only writes are pixel writes (R57), and every pixel's word lies in the region (R48, R171). -/
def Obligations.OnlyFramebufferBytesChange : Prop :=
  ∀ s t : State, step s = .next t →
    ∀ a : Nat, a < u32 s.plat.cfg.fbBase ∨ u32 s.plat.cfg.fbBase + 0x100000 ≤ a → t.mem.read a = s.mem.read a

/-- R206: "no register has been written", "`pc` keeps the address of the failing instruction"; R208 for the partial effects. One clause rests on the model's choice: SPRITE's word writes have the row SPRITE_BASE_Y + dy reduced modulo 2^32 (DEDUCED, log 15); where `Config.spriteRowsFit` holds the reduction changes nothing and they are those of R180. -/
def Obligations.FailureLeavesEarlierEffectsOnly : Prop :=
  ∀ s t : State, step s = .next t → ∀ kind info, t.status = .failed kind info →
    SameRegs s t ∧ t.pc = s.pc ∧ t.plat = s.plat ∧ (∀ u, step t ≠ .next u) ∧
      (kind ≠ .addressError → t.mem = s.mem ∧ t.out = s.out) ∧
      (kind = .addressError → ∃ iw i, s.fetch = some iw ∧ decode iw = .ok i ∧
        (StoppedDrawing i s t info ∨ StoppedPrinting i s t info))

/-- The frame of every instruction: R22's list of instructions that write no register, R46, R110, R140, R155, R175; Out is append-only (R26, R32). -/
def Obligations.EachFamilyHasOnlyItsEffects : Prop :=
  ∀ (i : Instr) (s t : State), exec i s = .next t →
    (i.isArith = false → SameRegs s t) ∧ (i.draws = false → t.mem = s.mem) ∧
    (i ≠ .syscall → (∀ ref, i ≠ .pstr ref) → t.out = s.out) ∧ ∃ bs, t.out = s.out ++ bs

/-- U8 (`stuck`): the loop "ends only at a zero byte or an invalid address" (R156). The fault's name is the model's (log 10). -/
def Obligations.OnlyAnEndlessStringStopsAnInstruction : Prop :=
  ∀ (i : Instr) (s : State), (∃ t, exec i s = .next t) ∨
    (exec i s = .fault .stringNeverEnds ∧ (i = .syscall ∨ ∃ ref, i = .pstr ref) ∧
      ∀ a : Word, ∃ b, b ≠ 0#8 ∧ s.memRead a = some b)

/-! ### Arithmetic and logic (40_arith_logic.md): each says where its word is matched, that it completes in every state, its result and its frame -/

/-- R112. A hard-wired destination discards the result (`RegisterResult`). -/
def Obligations.AddiWritesTheWrappedSum : Prop :=
  ∀ (rt rs : Reg) (imm : Half) (s : State), EncodedAt (.addi rt rs imm) 0 .I ∧
    ∃ t, exec (.addi rt rs imm) s = .next t ∧
      RegisterResult s t rt (BitVec.ofInt 32 ((s.readReg rs).toInt + imm.toInt))

/-- R113. A hard-wired destination discards the result (`RegisterResult`). -/
def Obligations.SubiWritesTheWrappedDifference : Prop :=
  ∀ (rt rs : Reg) (imm : Half) (s : State), EncodedAt (.subi rt rs imm) 1 .I ∧
    (∃ t, exec (.subi rt rs imm) s = .next t ∧
      RegisterResult s t rt (BitVec.ofInt 32 ((s.readReg rs).toInt - imm.toInt))) ∧
    ∃ t u, exec (.addi rt rt imm) s = .next t ∧ exec (.subi rt rt imm) t = .next u ∧ SameRegs s u

/-- R114. A hard-wired destination discards the result (`RegisterResult`). -/
def Obligations.MaxmagKeepsTheLargerMagnitude : Prop :=
  ∀ (rd rs rt : Reg) (s : State), EncodedAt (.maxmag rd rs rt) 2 .R ∧
    ∃ t, exec (.maxmag rd rs rt) s = .next t ∧
      RegisterResult s t rd (if (s.readReg rs).toInt.natAbs ≥ (s.readReg rt).toInt.natAbs then s.readReg rs else s.readReg rt)

/-- R115. A hard-wired destination discards the result (`RegisterResult`). -/
def Obligations.AvgHalvesTheWrappedSum : Prop :=
  ∀ (rd rs rt : Reg) (s : State), EncodedAt (.avg rd rs rt) 3 .R ∧
    ∃ t q, exec (.avg rd rs rt) s = .next t ∧ RegisterResult s t rd q ∧
      q.toInt = (s.readReg rs + s.readReg rt).toInt.tdiv 2

/-- R116. A hard-wired destination discards the result (`RegisterResult`). -/
def Obligations.XorWritesTheBitwiseXor : Prop :=
  ∀ (rd rs rt : Reg) (s : State), EncodedAt (.xor rd rs rt) 4 .R ∧
    ∃ t, exec (.xor rd rs rt) s = .next t ∧
      RegisterResult s t rd (s.readReg rs ^^^ s.readReg rt)

/-- R117. A hard-wired destination discards the result (`RegisterResult`). -/
def Obligations.Cmp3WritesTheSignedOrder : Prop :=
  ∀ (rd rs rt : Reg) (s : State), EncodedAt (.cmp3 rd rs rt) 5 .R ∧
    ∃ t, exec (.cmp3 rd rs rt) s = .next t ∧
      RegisterResult s t rd (if (s.readReg rs).toInt < (s.readReg rt).toInt then 0xFFFFFFFF#32
        else if (s.readReg rt).toInt < (s.readReg rs).toInt then 1#32 else 0#32)

/-- R118. A hard-wired destination discards the result (`RegisterResult`). -/
def Obligations.ClampLimitsToPlusMinusHundred : Prop :=
  ∀ (rd rs : Reg) (s : State), EncodedAt (.clamp rd rs) 6 .R ∧
    ∃ t v, exec (.clamp rd rs) s = .next t ∧ RegisterResult s t rd v ∧
      v.toInt = max (-100) (min 100 (s.readReg rs).toInt)

/-- R119. A hard-wired destination discards the result (`RegisterResult`). -/
def Obligations.ModnormNormalisesIntoFifty : Prop :=
  ∀ (rd rs : Reg) (s : State), EncodedAt (.modnorm rd rs) 7 .R ∧
    ∃ t v, exec (.modnorm rd rs) s = .next t ∧ RegisterResult s t rd v ∧
      -50 ≤ v.toInt ∧ v.toInt ≤ 50 ∧ (101 : Int) ∣ (s.readReg rs).toInt - (v.toInt + 50)

/-- R120. A hard-wired destination discards the result (`RegisterResult`). -/
def Obligations.SgncIsOneExactlyForPositive : Prop :=
  ∀ (rd rs : Reg) (s : State), EncodedAt (.sgnc rd rs) 8 .R ∧
    ∃ t, exec (.sgnc rd rs) s = .next t ∧
      RegisterResult s t rd (if 0 < (s.readReg rs).toInt then 1#32 else 0#32)

/-- R121. A hard-wired destination discards the result (`RegisterResult`). -/
def Obligations.BidxIsTheFlooredResidue : Prop :=
  ∀ (rd rs rt : Reg) (s : State), EncodedAt (.bidx rd rs rt) 9 .R ∧
    ∃ t v, exec (.bidx rd rs rt) s = .next t ∧ RegisterResult s t rd v ∧
      ((s.readReg rt).toInt ≤ 0 → v = 0#32) ∧
      (0 < (s.readReg rt).toInt → 0 ≤ v.toInt ∧ v.toInt < (s.readReg rt).toInt ∧
        (s.readReg rt).toInt ∣ (s.readReg rs).toInt - v.toInt ∧
        ∀ (s' t' : State), exec (.bidx rd rs rt) s' = .next t' → s'.hardwired rd = false →
          s'.readReg rt = s.readReg rt → (s.readReg rt).toInt ∣ (s'.readReg rs).toInt - (s.readReg rs).toInt →
          t'.readReg rd = v)

/-- R122. A hard-wired destination discards the result (`RegisterResult`). -/
def Obligations.SumbankWritesTheBanksSum : Prop :=
  ∀ (rd : Reg) (s : State), EncodedAt (.sumbank rd) 10 .R ∧
    (s.plat.cfg.wellFormed = true → (bankRegisters s.plat.cfg).length = 8 ∧ ∃ t, exec (.sumbank rd) s = .next t ∧
      RegisterResult s t rd (BitVec.ofInt 32 ((bankRegisters s.plat.cfg).map fun r => (s.readReg r).toInt).sum))

/-- R123, for an operand register outside and inside the bank. -/
def Obligations.DrainDecrementsPositiveBankRegisters : Prop :=
  ∀ (rd : Reg) (s : State), EncodedAt (.drain rd) 11 .R ∧
    (s.plat.cfg.wellFormed = true → ∃ t, exec (.drain rd) s = .next t ∧
      (∀ r : Reg, t.readReg r =
        (if s.plat.cfg.bankBase ≤ r.val ∧ r.val < s.plat.cfg.bankBase + 8 ∧ 0 < (s.readReg r).toInt
          then s.readReg r - 1#32 else s.readReg r) +
        (if r = rd ∧ s.hardwired rd = false then
          BitVec.ofNat 32 ((bankRegisters s.plat.cfg).filter fun b => 0 < (s.readReg b).toInt).length
          else 0#32)) ∧
      t.mem = s.mem ∧ t.out = s.out ∧ SameDriver s t ∧ t.outcome = some .next)

/-- R124. The ignored field is carried in the instruction (log 13) and quantified over. -/
def Obligations.LuiWritesTheUpperHalf : Prop :=
  ∀ (rt rs : Reg) (imm : Half) (s : State), EncodedAt (.lui rt rs imm) 12 .I ∧
    ∃ t, exec (.lui rt rs imm) s = .next t ∧ RegisterResult s t rt (imm ++ 0#16)

/-- R125. A hard-wired destination discards the result (`RegisterResult`). -/
def Obligations.OriWritesTheBitwiseOr : Prop :=
  ∀ (rt rs : Reg) (imm : Half) (s : State), EncodedAt (.ori rt rs imm) 13 .I ∧
    ∃ t, exec (.ori rt rs imm) s = .next t ∧
      RegisterResult s t rt (s.readReg rs ||| (0#16 ++ imm))

/-- R100: "a 32-bit constant `c` is built with `lui rt, c[31:16]` followed by `ori rt, rt, c[15:0]`"; R237 (2) for XOR. -/
def Obligations.LuiOriBuildsAnyConstant : Prop :=
  (∀ (rt : Reg) (c : Word) (s : State), ∃ t u, exec (.lui rt 0 (c.extractLsb' 16 16)) s = .next t ∧
    exec (.ori rt rt (c.extractLsb' 0 16)) t = .next u ∧ RegisterResult s u rt c) ∧
  ∀ (rd rs : Reg) (s : State), ∃ t, exec (.xor rd rs rs) s = .next t ∧ RegisterResult s t rd 0#32

/-! ### Control transfer (41_control_transfer.md) -/

/-- R142, with the target of R141 (base and scale are the spec's decision D16). -/
def Obligations.BposTransfersOnPositive : Prop :=
  ∀ (rs : Reg) (imm : Half) (s : State), EncodedAt (.bpos rs imm) 14 .B ∧
    exec (.bpos rs imm) s = .next { s with outcome := some (
      if 0 < (s.readReg rs).toInt then .transfer (s.pc + 4#32 + 4#32 * imm.signExtend 32) else .next) }

/-- R143, with the target of R141 (base and scale are the spec's decision D16). -/
def Obligations.BnegTransfersOnNegative : Prop :=
  ∀ (rs : Reg) (imm : Half) (s : State), EncodedAt (.bneg rs imm) 15 .B ∧
    exec (.bneg rs imm) s = .next { s with outcome := some (
      if (s.readReg rs).toInt < 0 then .transfer (s.pc + 4#32 + 4#32 * imm.signExtend 32) else .next) }

/-- R144, with the target of R141 (base and scale are the spec's decision D16). -/
def Obligations.BeqTransfersOnEqual : Prop :=
  ∀ (rs rt : Reg) (imm : Half) (s : State), EncodedAt (.beq rs rt imm) 16 .B ∧
    exec (.beq rs rt imm) s = .next { s with outcome := some (
      if s.readReg rs = s.readReg rt then .transfer (s.pc + 4#32 + 4#32 * imm.signExtend 32) else .next) }

/-- R99 for the field, R98 for its range, R141 for the target. -/
def Obligations.BranchFieldReachesItsLabel : Prop :=
  ∀ (s : State) (rs rt : Reg) (label : Word), u32 s.pc % 4 = 0 → u32 label % 4 = 0 →
    -32768 ≤ ((u32 label : Int) - (u32 s.pc + 4)) / 4 → ((u32 label : Int) - (u32 s.pc + 4)) / 4 ≤ 32767 →
    s.pc + 4#32 + 4#32 * (branchField s.pc label).signExtend 32 = label ∧
    (0 < (s.readReg rs).toInt →
      exec (.bpos rs (branchField s.pc label)) s = .next { s with outcome := some (.transfer label) }) ∧
    ((s.readReg rs).toInt < 0 →
      exec (.bneg rs (branchField s.pc label)) s = .next { s with outcome := some (.transfer label) }) ∧
    (s.readReg rs = s.readReg rt →
      exec (.beq rs rt (branchField s.pc label)) s = .next { s with outcome := some (.transfer label) })

/-- R145. -/
def Obligations.JmpTransfersToTheResolvedLabel : Prop :=
  ∀ (ref : Half) (s : State), EncodedAt (.jmp ref) 17 .B ∧
    (∀ a, lookupKey ref s.plat.symTab = some a →
      exec (.jmp ref) s = .next { s with outcome := some (.transfer a) }) ∧
    (lookupKey ref s.plat.symTab = none →
      exec (.jmp ref) s = .next { s with outcome := some (.fail .unresolvedSymbol (ref.zeroExtend 32)) })

/-! ### Strings and system calls (42_string_syscall.md) -/

/-- R157 with the loop of R156. A string is shorter than 2^32 bytes, since the address would otherwise return to its first byte. -/
def Obligations.PstrPrintsTheStringAtItsLabel : Prop :=
  ∀ (ref : Half) (s : State), EncodedAt (.pstr ref) 18 .B ∧
    (∀ a bs, lookupKey ref s.plat.symTab = some a → bs.length < 4294967296 → StringAt s a bs →
      exec (.pstr ref) s = .next { s with out := s.out ++ bs, outcome := some .next }) ∧
    (∀ a bs bad, lookupKey ref s.plat.symTab = some a → bs.length < 4294967296 → BrokenStringAt s a bs bad →
      exec (.pstr ref) s = .next { s with out := s.out ++ bs, outcome := some (.fail .addressError bad) }) ∧
    (lookupKey ref s.plat.symTab = none →
      exec (.pstr ref) s = .next { s with outcome := some (.fail .unresolvedSymbol (ref.zeroExtend 32)) })

/-- R158 and the table of R160, the services tried in the order of the pseudocode. -/
def Obligations.SyscallRunsTheSelectedService : Prop :=
  ∀ s : State, EncodedAt .syscall 19 .R ∧
    ((s.readReg s.plat.cfg.sysSelReg).toInt = s.plat.cfg.svcPrintInt →
      exec .syscall s = .next { s with
        out := s.out ++ decimalText (s.readReg s.plat.cfg.sysArgReg).toInt, outcome := some .next }) ∧
    ((s.readReg s.plat.cfg.sysSelReg).toInt ≠ s.plat.cfg.svcPrintInt →
      ((s.readReg s.plat.cfg.sysSelReg).toInt = s.plat.cfg.svcPrintStr →
        (∀ bs, bs.length < 4294967296 → StringAt s (s.readReg s.plat.cfg.sysArgReg) bs →
          exec .syscall s = .next { s with out := s.out ++ bs, outcome := some .next }) ∧
        (∀ bs bad, bs.length < 4294967296 → BrokenStringAt s (s.readReg s.plat.cfg.sysArgReg) bs bad →
          exec .syscall s = .next { s with out := s.out ++ bs, outcome := some (.fail .addressError bad) })) ∧
      ((s.readReg s.plat.cfg.sysSelReg).toInt ≠ s.plat.cfg.svcPrintStr →
        ((s.readReg s.plat.cfg.sysSelReg).toInt = s.plat.cfg.svcExit →
          exec .syscall s = .next { s with outcome := some .terminate }) ∧
        ((s.readReg s.plat.cfg.sysSelReg).toInt ≠ s.plat.cfg.svcExit →
          exec .syscall s = .next { s with
            outcome := some (.fail .unsupportedOperation (s.readReg s.plat.cfg.sysSelReg)) })))

/-- R204. -/
def Obligations.TerminateStopsWithoutFailing : Prop :=
  ∀ s : State, s.status = .running → s.plat.cfg.wellFormed = true → u32 s.pc % 4 = 0 →
    lookupKey s.pc s.plat.imem = some 0x0000000C#32 →
    (s.readReg s.plat.cfg.sysSelReg).toInt = s.plat.cfg.svcExit →
    s.plat.cfg.svcExit ≠ s.plat.cfg.svcPrintInt → s.plat.cfg.svcExit ≠ s.plat.cfg.svcPrintStr →
    ∃ t, step s = .next t ∧ t = { s with status := .terminated, outcome := none } ∧
      (∀ kind info, t.status ≠ .failed kind info) ∧ ∀ u, step t ≠ .next u

/-- R159, for every `n` in `[INT_MIN, INT_MAX]`. -/
def Obligations.DecimalTextSpellsItsInteger : Prop :=
  ∀ n : Int, -2147483648 ≤ n → n ≤ 2147483647 →
    ∃ ds, decimalText n = (if n < 0 then [0x2D#8] else []) ++ ds ∧ ds ≠ [] ∧
      (∀ d ∈ ds, 0x30 ≤ d.toNat ∧ d.toNat ≤ 0x39) ∧ digitsValue ds = n.natAbs ∧
      (ds.head? = some 0x30#8 → n = 0 ∧ ds = [0x30#8])

/-- U8: "`stuck`: the instruction never completes and the model has no outcome for it". The fault is the model's name for it (log 10). -/
def Obligations.EndlessStringNeverCompletes : Prop :=
  ∀ s : State, (∀ a : Word, ∃ b, b ≠ 0#8 ∧ s.memRead a = some b) →
    (∀ ref a, lookupKey ref s.plat.symTab = some a → exec (.pstr ref) s = .fault .stringNeverEnds) ∧
    ((s.readReg s.plat.cfg.sysSelReg).toInt = s.plat.cfg.svcPrintStr →
      (s.readReg s.plat.cfg.sysSelReg).toInt ≠ s.plat.cfg.svcPrintInt →
      exec .syscall s = .fault .stringNeverEnds)

/-! ### Drawing (43_framebuffer.md) -/

/-- R176, with PixelWrite of R173. A read back of the written bytes needs a canonical memory, which `EveryStepKeepsTheInvariant` gives. -/
def Obligations.PixelWritesItsWordOrNothing : Prop :=
  ∀ (rs rt rd : Reg) (s : State), EncodedAt (.pixel rs rt rd) 20 .R ∧
    (¬ ((0 ≤ (s.readReg rs).toInt ∧ (s.readReg rs).toInt < 512) ∧ 0 ≤ (s.readReg rt).toInt ∧ (s.readReg rt).toInt < 512) →
      exec (.pixel rs rt rd) s = .next { s with outcome := some .next }) ∧
    (s.plat.cfg.wellFormed = true → ∀ x y : Nat, x < 512 → y < 512 →
      (s.readReg rs).toInt = x → (s.readReg rt).toInt = y →
      (validWord s.plat (pixelByte s.plat.cfg x y) = true → ∃ t, exec (.pixel rs rt rd) s = .next t ∧
        t = { s with mem := s.mem.writeWord (pixelByte s.plat.cfg x y) (s.readReg rd), outcome := some .next } ∧
        (s.mem.wf = true → ∀ k, k < 4 → t.mem.read (pixelByte s.plat.cfg x y + k) = byteOf (s.readReg rd) k) ∧
        ∀ a, a < pixelByte s.plat.cfg x y ∨ pixelByte s.plat.cfg x y + 4 ≤ a → t.mem.read a = s.mem.read a) ∧
      (validWord s.plat (pixelByte s.plat.cfg x y) = false →
        exec (.pixel rs rt rd) s = .next { s with
          outcome := some (.fail .addressError (BitVec.ofNat 32 (pixelByte s.plat.cfg x y))) }))

/-- R177; the failing case is in the first clause (`PaintResult`). -/
def Obligations.FillallPaintsEveryPixel : Prop :=
  ∀ (rs : Reg) (s : State), EncodedAt (.fillall rs) 21 .R ∧
    (∃ t, exec (.fillall rs) s = .next t ∧ PaintResult s t (gridWrites s.plat.cfg (s.readReg rs))) ∧
    (s.plat.CanDraw → s.mem.wf = true →
      ∃ t, exec (.fillall rs) s = .next t ∧ PaintedPixels s t (fun _ _ => True) (s.readReg rs))

/-- R178; the failing case is in the first clause (`PaintResult`). -/
def Obligations.FillrowPaintsItsRow : Prop :=
  ∀ (rs rt : Reg) (s : State), EncodedAt (.fillrow rs rt) 22 .R ∧
    (∃ t, exec (.fillrow rs rt) s = .next t ∧ PaintResult s t (rowWrites s.plat.cfg (s.readReg rs) (s.readReg rt))) ∧
    (s.plat.CanDraw → s.mem.wf = true →
      ∃ t, exec (.fillrow rs rt) s = .next t ∧ PaintedPixels s t (fun _ y => (s.readReg rs).toInt = y) (s.readReg rt)) ∧
    (¬ (0 ≤ (s.readReg rs).toInt ∧ (s.readReg rs).toInt < 512) → exec (.fillrow rs rt) s = .next { s with outcome := some .next })

/-- R179; the failing case is in the first clause (`PaintResult`). -/
def Obligations.FillcolPaintsItsColumn : Prop :=
  ∀ (rs rt : Reg) (s : State), EncodedAt (.fillcol rs rt) 23 .R ∧
    (∃ t, exec (.fillcol rs rt) s = .next t ∧ PaintResult s t (colWrites s.plat.cfg (s.readReg rs) (s.readReg rt))) ∧
    (s.plat.CanDraw → s.mem.wf = true →
      ∃ t, exec (.fillcol rs rt) s = .next t ∧ PaintedPixels s t (fun x _ => (s.readReg rs).toInt = x) (s.readReg rt)) ∧
    (¬ (0 ≤ (s.readReg rs).toInt ∧ (s.readReg rs).toInt < 512) → exec (.fillcol rs rt) s = .next { s with outcome := some .next })

/-- R180, for every sprite table and base row that keep the rows in the signed 32-bit range (R184 asks that nothing rest on their values); the rows are integers here, not reduced. For the other tables see `SpriteRowIsReducedModulo`. -/
def Obligations.SpriteDrawsItsTableClipped : Prop :=
  ∀ (rs : Reg) (s : State), EncodedAt (.sprite rs) 24 .R ∧
    (s.plat.cfg.spriteRowsFit →
      (∃ t, exec (.sprite rs) s = .next t ∧ PaintResult s t (spritePixels s.plat.cfg (s.readReg rs))) ∧
      (s.plat.CanDraw → ∃ t, exec (.sprite rs) s = .next t ∧
        t = { s with mem := s.mem.writeWords (spritePixels s.plat.cfg (s.readReg rs)), outcome := some .next } ∧
        ∀ a, (∀ w ∈ spritePixels s.plat.cfg (s.readReg rs), a < u32 w.1 ∨ u32 w.1 + 4 ≤ a) →
          t.mem.read a = s.mem.read a))

/-- The model's reading (DEDUCED, log 15), no rule of the spec: R180 does not reduce the row, but R173's pixel write takes 32-bit patterns. -/
def Obligations.SpriteRowIsReducedModulo : Prop :=
  ∀ (rs : Reg) (s : State),
    (∃ t, exec (.sprite rs) s = .next t ∧ PaintResult s t (spriteWrites s.plat.cfg (s.readReg rs))) ∧
    (s.plat.CanDraw → ∃ t, exec (.sprite rs) s = .next t ∧
      t = { s with mem := s.mem.writeWords (spriteWrites s.plat.cfg (s.readReg rs)), outcome := some .next } ∧
      ∀ a, (∀ w ∈ spriteWrites s.plat.cfg (s.readReg rs), a < u32 w.1 ∨ u32 w.1 + 4 ≤ a) →
        t.mem.read a = s.mem.read a)

/-- R171: "every `PixelAddr` is word-aligned and the addition never wraps"; R185. -/
def Obligations.PixelWordsAreDistinctAndInside : Prop :=
  ∀ c : Config, c.wellFormed = true → ∀ x y : Nat, x < 512 → y < 512 →
    u32 (pixelAddr c x y) = u32 c.fbBase + (y * 512 + x) * 4 ∧ u32 (pixelAddr c x y) % 4 = 0 ∧
    u32 (pixelAddr c x y) + 4 ≤ u32 c.fbBase + 0x100000 ∧
    ∀ x' y' : Nat, x' < 512 → y' < 512 → (x, y) ≠ (x', y') →
      u32 (pixelAddr c x y) + 4 ≤ u32 (pixelAddr c x' y') ∨ u32 (pixelAddr c x' y') + 4 ≤ u32 (pixelAddr c x y)

/-! ### The register and memory ports (10_state.md, 20_memory.md) -/

/-- R28 (with R21 for register 0), for both values of REG0_ZERO. -/
def Obligations.RegisterPortReturnsTheLastWrite : Prop :=
  ∀ (s : State) (r r' : Reg) (v : Word),
    (r' ≠ r → (s.writeReg r v).readReg r' = s.readReg r') ∧
    (¬ (s.plat.cfg.reg0Zero = true ∧ r = 0) → (s.writeReg r v).readReg r = v) ∧
    (s.plat.cfg.reg0Zero = true → s.readReg 0 = 0#32 ∧ s.writeReg 0 v = s)

/-- R42 and R43 (little-endian is the spec's decision D18), for a canonical memory, which every step keeps. -/
def Obligations.MemoryPortReadsWhatWasWritten : Prop :=
  (∀ (s : State) (a : Word),
    (validByte s.plat (u32 a) = true → s.memRead a = some (s.mem.read (u32 a))) ∧
    (validByte s.plat (u32 a) = false → s.memRead a = none)) ∧
  ∀ (p : Platform) (a v : Word) (m : Memory), m.wf = true →
    ((u32 a % 4 = 0 ∧ ∀ k, k < 4 → validByte p (u32 a + k) = true) →
      ∃ m', memWrite p a v m = ⟨m', none⟩ ∧ m'.wf = true ∧
        m'.read (u32 a) = v.extractLsb' 0 8 ∧ m'.read (u32 a + 1) = v.extractLsb' 8 8 ∧
        m'.read (u32 a + 2) = v.extractLsb' 16 8 ∧ m'.read (u32 a + 3) = v.extractLsb' 24 8 ∧
        ∀ a', a' < u32 a ∨ u32 a + 4 ≤ a' → m'.read a' = m.read a') ∧
    (¬ (u32 a % 4 = 0 ∧ ∀ k, k < 4 → validByte p (u32 a + k) = true) → memWrite p a v m = ⟨m, some a⟩)
end

