-- ==== Sys2Proof/Laws/Decode.lean ====
section
/-! SUPPORT. The pattern matcher and the encoder: words assembled from fields give the fields back, and two entries that
differ in a common literal bit accept no common word. -/

namespace Sys2Proof

/-- A literal bit on which two entries differ separates them (R81). -/
theorem accepts_conflict {e f : Entry} {w : Word} (he : e.accepts w = true) (hf : f.accepts w = true) :
    e.mask &&& f.mask &&& (e.matchBits ^^^ f.matchBits) = 0#32 := by
  simp only [Entry.accepts, beq_iff_eq] at he hf
  rw [← he, ← hf]
  apply BitVec.eq_of_getLsbD_eq
  intro i hi
  simp only [BitVec.getLsbD_and, BitVec.getLsbD_xor, BitVec.getLsbD_zero]
  cases w.getLsbD i <;> cases e.mask.getLsbD i <;> cases f.mask.getLsbD i <;> rfl

/-- Every two entries of the catalog have a common literal bit on which they differ (R81). -/
theorem catalog_conflicts :
    catalog.Pairwise fun e f => e.mask &&& f.mask &&& (e.matchBits ^^^ f.matchBits) ≠ 0#32 := by
  decide +kernel

@[simp] theorem placeReg_zero (lo : Nat) : placeReg 0 lo = 0#32 := by simp [placeReg]

theorem placeReg_21_bits : ∀ r : Reg, placeReg r 21 &&& 0x03E00000#32 = placeReg r 21 := by decide
theorem placeReg_16_bits : ∀ r : Reg, placeReg r 16 &&& 0x001F0000#32 = placeReg r 16 := by decide
theorem placeReg_11_bits : ∀ r : Reg, placeReg r 11 &&& 0x0000F800#32 = placeReg r 11 := by decide

theorem imm_bits (imm : Half) : imm.zeroExtend 32 &&& 0x0000FFFF#32 = imm.zeroExtend 32 := by
  have h : (0x0000FFFF#32 : Word) = (BitVec.allOnes 16).zeroExtend 32 := by decide
  rw [h]
  apply BitVec.eq_of_getLsbD_eq
  intro i hi
  simp only [BitVec.getLsbD_and, BitVec.truncate_eq_setWidth, BitVec.getLsbD_setWidth, BitVec.getLsbD_allOnes, hi,
    decide_true, Bool.true_and]
  by_cases h : i < 16
  · simp [h]
  · simp [h, BitVec.getLsbD_of_ge imm i (by omega)]

/-- A value confined to bits that a mask does not have is cleared by the mask. -/
theorem and_mask_eq_zero {a field mask : Word} (ha : a &&& field = a) (hm : field &&& mask = 0#32) : a &&& mask = 0#32 := by
  rw [← ha, BitVec.and_assoc, hm, BitVec.and_zero]

/-- An assembled word under a mask that keeps the literals and clears the fields is the literals (R76, R96). -/
theorem assembleWord_and_mask {mask m : Word} {rs rt rd : Reg} {imm : Half} (hm : m &&& mask = m)
    (hs : placeReg rs 21 &&& mask = 0#32) (ht : placeReg rt 16 &&& mask = 0#32) (hd : placeReg rd 11 &&& mask = 0#32)
    (hi : imm.zeroExtend 32 &&& mask = 0#32) : assembleWord m rs rt rd imm &&& mask = m := by
  unfold assembleWord
  apply BitVec.eq_of_getLsbD_eq
  intro i hlt
  have hm := congrArg (·.getLsbD i) hm
  have hs := congrArg (·.getLsbD i) hs
  have ht := congrArg (·.getLsbD i) ht
  have hd := congrArg (·.getLsbD i) hd
  have hi := congrArg (·.getLsbD i) hi
  simp only [BitVec.getLsbD_and, BitVec.getLsbD_zero] at hm hs ht hd hi
  simp only [BitVec.getLsbD_and, BitVec.getLsbD_or, Bool.and_or_distrib_right, hm, hs, ht, hd, hi, Bool.or_false]

theorem extract_or (a b : Word) (lo n : Nat) :
    (a ||| b).extractLsb' lo n = a.extractLsb' lo n ||| b.extractLsb' lo n := by
  apply BitVec.eq_of_getLsbD_eq
  intro i hi
  simp only [BitVec.getLsbD_extractLsb', BitVec.getLsbD_or, hi, decide_true, Bool.true_and]

theorem extract_reg_self_21 : ∀ r : Reg, (placeReg r 21).extractLsb' 21 5 = BitVec.ofNat 5 r.val := by decide
theorem extract_reg_self_16 : ∀ r : Reg, (placeReg r 16).extractLsb' 16 5 = BitVec.ofNat 5 r.val := by decide
theorem extract_reg_self_11 : ∀ r : Reg, (placeReg r 11).extractLsb' 11 5 = BitVec.ofNat 5 r.val := by decide
theorem extract_21_of_16 : ∀ r : Reg, (placeReg r 16).extractLsb' 21 5 = 0#5 := by decide
theorem extract_21_of_11 : ∀ r : Reg, (placeReg r 11).extractLsb' 21 5 = 0#5 := by decide
theorem extract_16_of_21 : ∀ r : Reg, (placeReg r 21).extractLsb' 16 5 = 0#5 := by decide
theorem extract_16_of_11 : ∀ r : Reg, (placeReg r 11).extractLsb' 16 5 = 0#5 := by decide
theorem extract_11_of_21 : ∀ r : Reg, (placeReg r 21).extractLsb' 11 5 = 0#5 := by decide
theorem extract_11_of_16 : ∀ r : Reg, (placeReg r 16).extractLsb' 11 5 = 0#5 := by decide
theorem extract_imm_of_21 : ∀ r : Reg, (placeReg r 21).extractLsb' 0 16 = 0#16 := by decide
theorem extract_imm_of_16 : ∀ r : Reg, (placeReg r 16).extractLsb' 0 16 = 0#16 := by decide

theorem extract_high_of_imm (imm : Half) {lo : Nat} (h : 16 ≤ lo) :
    (imm.zeroExtend 32 : Word).extractLsb' lo 5 = 0#5 := by
  apply BitVec.eq_of_getLsbD_eq
  intro i hi
  simp only [BitVec.getLsbD_extractLsb', BitVec.truncate_eq_setWidth, BitVec.getLsbD_setWidth, BitVec.getLsbD_zero]
  simp [BitVec.getLsbD_of_ge imm (lo + i) (by omega)]

theorem extract_imm_self (imm : Half) : (imm.zeroExtend 32 : Word).extractLsb' 0 16 = imm := by
  apply BitVec.eq_of_getLsbD_eq
  intro i hi
  simp only [BitVec.getLsbD_extractLsb', BitVec.truncate_eq_setWidth, BitVec.getLsbD_setWidth]
  simp [hi, show i < 32 by omega]

/-- The `rs` field of an assembled word (R91, R96). -/
theorem fieldRs_assembleWord {m : Word} (hm : m.extractLsb' 21 5 = 0#5) (rs rt rd : Reg) (imm : Half) :
    fieldRs (assembleWord m rs rt rd imm) = rs := by
  unfold fieldRs assembleWord
  rw [extract_or, extract_or, extract_or, extract_or, hm, extract_reg_self_21, extract_21_of_16, extract_21_of_11,
    extract_high_of_imm imm (by omega)]
  simp

/-- The `rt` field of an assembled word (R91, R96). -/
theorem fieldRt_assembleWord {m : Word} (hm : m.extractLsb' 16 5 = 0#5) (rs rt rd : Reg) (imm : Half) :
    fieldRt (assembleWord m rs rt rd imm) = rt := by
  unfold fieldRt assembleWord
  rw [extract_or, extract_or, extract_or, extract_or, hm, extract_reg_self_16, extract_16_of_21, extract_16_of_11,
    extract_high_of_imm imm (by omega)]
  simp

/-- The `rd` field of an assembled register-format word (R91, R96). -/
theorem fieldRd_assembleWord {m : Word} (hm : m.extractLsb' 11 5 = 0#5) (rs rt rd : Reg) :
    fieldRd (assembleWord m rs rt rd 0) = rd := by
  unfold fieldRd assembleWord
  rw [extract_or, extract_or, extract_or, extract_or, hm, extract_reg_self_11, extract_11_of_21, extract_11_of_16]
  simp

/-- The `imm` field of an assembled immediate or branch word (R96). -/
theorem fieldImm_assembleWord {m : Word} (hm : m.extractLsb' 0 16 = 0#16) (rs rt : Reg) (imm : Half) :
    fieldImm (assembleWord m rs rt 0 imm) = imm := by
  unfold fieldImm assembleWord
  rw [extract_or, extract_or, extract_or, extract_or, hm, extract_imm_of_21, extract_imm_of_16, extract_imm_self]
  simp

end Sys2Proof
end

