-- ==== Sys2Proof/Laws/Memory.lean ====
section
/-! SUPPORT. The laws of memory: read after write, the canonical form is kept, equal reads of canonical memories are equal
memories, and the word write and the one-pass fill in terms of reads. -/

namespace Sys2Proof.Machine

open Sys2Proof

@[simp] theorem read_nil (a : Nat) : Memory.read [] a = unlistedByte := rfl

theorem read_cons (k : Nat) (b : Byte) (m : Memory) (a : Nat) :
    Memory.read ((k, b) :: m) a = if k = a then b else Memory.read m a := rfl

@[simp] theorem wfFrom_nil (lo : Nat) : Memory.wfFrom lo [] = true := rfl

@[simp] theorem wfFrom_cons (lo k : Nat) (b : Byte) (m : Memory) :
    Memory.wfFrom lo ((k, b) :: m) = true ↔
      lo ≤ k ∧ k < addressCount ∧ b ≠ unlistedByte ∧ Memory.wfFrom (k + 1) m = true := by
  simp [Memory.wfFrom, and_assoc]

/-- A bound on the first address can be lowered. -/
theorem wfFrom_mono {lo lo' : Nat} (h : lo ≤ lo') {m : Memory} (hm : m.wfFrom lo' = true) : m.wfFrom lo = true := by
  cases m with
  | nil => rfl
  | cons e m => obtain ⟨k, b⟩ := e; simp only [wfFrom_cons] at *; exact ⟨by omega, hm.2⟩

/-- Below the first address a canonical memory lists nothing. -/
theorem read_below {lo : Nat} {m : Memory} (hm : m.wfFrom lo = true) {a : Nat} (ha : a < lo) :
    m.read a = unlistedByte := by
  induction m generalizing lo with
  | nil => rfl
  | cons e m ih =>
    obtain ⟨k, b⟩ := e
    simp only [wfFrom_cons] at hm
    rw [read_cons, if_neg (by omega)]
    exact ih hm.2.2.2 (by omega)

/-- A write leaves every other byte alone. -/
theorem read_writeByte_ne (m : Memory) {a a' : Nat} (b : Byte) (h : a' ≠ a) :
    (m.writeByte a b).read a' = m.read a' := by
  induction m with
  | nil => unfold Memory.writeByte; split <;> simp [read_cons, Ne.symm h]
  | cons e m ih =>
    obtain ⟨k, c⟩ := e
    unfold Memory.writeByte
    split
    · split <;> simp [read_cons, Ne.symm h]
    · split
      · rename_i hk; subst hk; split <;> simp [read_cons, Ne.symm h]
      · simp [read_cons, ih]

/-- A read after a write to the same address gives the byte written, in a canonical memory. -/
theorem read_writeByte_self {lo : Nat} {m : Memory} (hm : m.wfFrom lo = true) (a : Nat) (b : Byte) :
    (m.writeByte a b).read a = b := by
  induction m generalizing lo with
  | nil => unfold Memory.writeByte; split <;> simp_all [read_cons]
  | cons e m ih =>
    obtain ⟨k, c⟩ := e
    have hm' := hm
    simp only [wfFrom_cons] at hm
    unfold Memory.writeByte
    split
    · rename_i hlt
      split
      · rename_i hb; subst hb
        rw [read_cons, if_neg (by omega)]
        exact read_below hm.2.2.2 (by omega)
      · simp [read_cons]
    · split
      · rename_i hk; subst hk
        split
        · rename_i hb; subst hb
          exact read_below hm.2.2.2 (by omega)
        · simp [read_cons]
      · rename_i hk
        rw [read_cons, if_neg (Ne.symm hk)]
        exact ih hm.2.2.2

theorem read_writeByte {lo : Nat} {m : Memory} (hm : m.wfFrom lo = true) (a a' : Nat) (b : Byte) :
    (m.writeByte a b).read a' = if a' = a then b else m.read a' := by
  split
  · rename_i h; subst h; exact read_writeByte_self hm a' b
  · rename_i h; exact read_writeByte_ne m b h

/-- A write keeps the canonical form. -/
theorem wfFrom_writeByte {lo : Nat} {m : Memory} (hm : m.wfFrom lo = true) {a : Nat} (ha : lo ≤ a)
    (hlt : a < addressCount) (b : Byte) : (m.writeByte a b).wfFrom lo = true := by
  induction m generalizing lo with
  | nil => unfold Memory.writeByte; split <;> simp_all
  | cons e m ih =>
    obtain ⟨k, c⟩ := e
    have hm' := hm
    simp only [wfFrom_cons] at hm
    unfold Memory.writeByte
    split
    · split
      · exact hm'
      · rename_i hka hb
        simp only [wfFrom_cons]
        exact ⟨ha, hlt, hb, by omega, hm.2.1, hm.2.2.1, hm.2.2.2⟩
    · split
      · split
        · exact wfFrom_mono (by omega) hm.2.2.2
        · rename_i hk hb
          subst hk
          simp only [wfFrom_cons]
          exact ⟨ha, hlt, hb, hm.2.2.2⟩
      · simp only [wfFrom_cons]
        exact ⟨hm.1, hm.2.1, hm.2.2.1, ih hm.2.2.2 (by omega)⟩

theorem wf_writeByte {m : Memory} (hm : m.wf = true) {a : Nat} (hlt : a < addressCount) (b : Byte) :
    (m.writeByte a b).wf = true :=
  wfFrom_writeByte hm (Nat.zero_le _) hlt b

/-- A word write keeps the canonical form. -/
theorem wf_writeWord {m : Memory} (hm : m.wf = true) {a : Nat} (hlt : a + 3 < addressCount) (v : Word) :
    (m.writeWord a v).wf = true := by
  unfold Memory.writeWord
  exact wf_writeByte (wf_writeByte (wf_writeByte (wf_writeByte hm (by omega) _) (by omega) _) (by omega) _) hlt _

/-- A word write leaves every byte outside its four alone. -/
theorem read_writeWord_ne (m : Memory) {a a' : Nat} (v : Word) (h : a' < a ∨ a + 4 ≤ a') :
    (m.writeWord a v).read a' = m.read a' := by
  unfold Memory.writeWord
  rw [read_writeByte_ne _ _ (by omega), read_writeByte_ne _ _ (by omega), read_writeByte_ne _ _ (by omega),
    read_writeByte_ne _ _ (by omega)]

/-- Byte `i` of a word just written reads as byte `i` of the value (R47). -/
theorem read_writeWord_byte {m : Memory} (hm : m.wf = true) {a : Nat} (hlt : a + 3 < addressCount) (v : Word) {i : Nat}
    (hi : i < 4) : (m.writeWord a v).read (a + i) = byteOf v i := by
  unfold Memory.writeWord
  have h0 := wf_writeByte hm (a := a) (by omega) (byteOf v 0)
  have h1 := wf_writeByte h0 (a := a + 1) (by omega) (byteOf v 1)
  have h2 := wf_writeByte h1 (a := a + 2) (by omega) (byteOf v 2)
  obtain rfl | rfl | rfl | rfl : i = 0 ∨ i = 1 ∨ i = 2 ∨ i = 3 := by omega
  · rw [read_writeByte_ne _ _ (by omega), read_writeByte_ne _ _ (by omega), read_writeByte_ne _ _ (by omega)]
    exact read_writeByte_self hm a _
  · rw [read_writeByte_ne _ _ (by omega), read_writeByte_ne _ _ (by omega)]
    exact read_writeByte_self h0 _ _
  · rw [read_writeByte_ne _ _ (by omega)]
    exact read_writeByte_self h1 _ _
  · exact read_writeByte_self h2 _ _

/-- A word write, read at any address. -/
theorem read_writeWord {m : Memory} (hm : m.wf = true) {a : Nat} (hlt : a + 3 < addressCount) (v : Word) (a' : Nat) :
    (m.writeWord a v).read a' = if a ≤ a' ∧ a' < a + 4 then byteOf v (a' - a) else m.read a' := by
  split
  · rename_i h
    have := read_writeWord_byte hm hlt v (i := a' - a) (by omega)
    rwa [Nat.add_sub_cancel' h.1] at this
  · exact read_writeWord_ne m v (by omega)

/-- Two canonical memories that read the same everywhere are the same list. -/
theorem ext_of_wfFrom {lo : Nat} {m m' : Memory} (hm : m.wfFrom lo = true) (hm' : m'.wfFrom lo = true)
    (h : ∀ a, m.read a = m'.read a) : m = m' := by
  induction m generalizing lo m' with
  | nil =>
    cases m' with
    | nil => rfl
    | cons e' m' =>
      obtain ⟨k, b⟩ := e'
      simp only [wfFrom_cons] at hm'
      have := h k
      simp [read_cons] at this
      exact absurd this.symm hm'.2.2.1
  | cons e m ih =>
    obtain ⟨k, b⟩ := e
    simp only [wfFrom_cons] at hm
    cases m' with
    | nil =>
      have := h k
      simp [read_cons] at this
      exact absurd this hm.2.2.1
    | cons e' m' =>
      obtain ⟨k', b'⟩ := e'
      simp only [wfFrom_cons] at hm'
      have hk : k = k' := by
        rcases Nat.lt_trichotomy k k' with hlt | heq | hgt
        · have := h k
          rw [read_cons, if_pos rfl, read_cons, if_neg (by omega), read_below hm'.2.2.2 (by omega)] at this
          exact absurd this hm.2.2.1
        · exact heq
        · have := h k'
          rw [read_cons, if_neg (by omega), read_cons, if_pos rfl, read_below hm.2.2.2 (by omega)] at this
          exact absurd this.symm hm'.2.2.1
      subst hk
      have hb : b = b' := by have := h k; simpa [read_cons] using this
      subst hb
      have : m = m' := ih hm.2.2.2 hm'.2.2.2 fun a => by
        by_cases ha : a < k + 1
        · rw [read_below hm.2.2.2 ha, read_below hm'.2.2.2 ha]
        · have := h a
          rwa [read_cons, if_neg (by omega), read_cons, if_neg (by omega)] at this
      rw [this]

theorem ext_of_wf {m m' : Memory} (hm : m.wf = true) (hm' : m'.wf = true) (h : ∀ a, m.read a = m'.read a) : m = m' :=
  ext_of_wfFrom hm hm' h

/-- An address outside the address space is never listed. -/
theorem read_outside {lo : Nat} {m : Memory} (hm : m.wfFrom lo = true) {a : Nat} (ha : addressCount ≤ a) :
    m.read a = unlistedByte := by
  induction m generalizing lo with
  | nil => rfl
  | cons e m ih =>
    obtain ⟨k, b⟩ := e
    simp only [wfFrom_cons] at hm
    rw [read_cons, if_neg (by omega)]
    exact ih hm.2.2.2

end Sys2Proof.Machine
end

