-- ==== Sys2Proof/Laws/Fill.lean ====
section
/-! SUPPORT. The one-pass fill of consecutive words (`Memory.fillWords`): it keeps the canonical form, and what it reads as. -/

namespace Sys2Proof.Machine

open Sys2Proof

theorem read_append_right {m m' : Memory} {a : Nat} (h : ∀ e ∈ m, e.1 ≠ a) : Memory.read (m ++ m') a = m'.read a := by
  induction m with
  | nil => rfl
  | cons e m ih =>
    obtain ⟨k, b⟩ := e
    simp only [List.mem_cons, forall_eq_or_imp] at h
    rw [List.cons_append, read_cons, if_neg h.1]
    exact ih h.2

theorem read_of_not_listed {m : Memory} {a : Nat} (h : ∀ e ∈ m, e.1 ≠ a) : m.read a = unlistedByte := by
  simpa using read_append_right (m' := []) h

theorem read_append_left {m m' : Memory} {a : Nat} (h : ∀ e ∈ m', e.1 ≠ a) : Memory.read (m ++ m') a = m.read a := by
  induction m with
  | nil => exact read_of_not_listed h
  | cons e m ih => obtain ⟨k, b⟩ := e; simp only [List.cons_append, read_cons, ih]

theorem wfFrom_append {lo mid : Nat} {m m' : Memory} (hm : m.wfFrom lo = true) (hlt : ∀ e ∈ m, e.1 < mid)
    (hm' : m'.wfFrom mid = true) (hle : lo ≤ mid) : Memory.wfFrom lo (m ++ m') = true := by
  induction m generalizing lo with
  | nil => exact wfFrom_mono hle hm'
  | cons e m ih =>
    obtain ⟨k, b⟩ := e
    simp only [List.mem_cons, forall_eq_or_imp] at hlt
    simp only [List.cons_append, wfFrom_cons] at *
    exact ⟨hm.1, hm.2.1, hm.2.2.1, ih hm.2.2.2 hlt.2 (by omega)⟩

theorem wfFrom_filter {lo : Nat} {m : Memory} (f : Host.Cell → Bool) (hm : m.wfFrom lo = true) :
    Memory.wfFrom lo (m.filter f) = true := by
  induction m generalizing lo with
  | nil => rfl
  | cons e m ih =>
    obtain ⟨k, b⟩ := e
    simp only [wfFrom_cons] at hm
    rw [List.filter_cons]
    split
    · simp only [wfFrom_cons]; exact ⟨hm.1, hm.2.1, hm.2.2.1, ih hm.2.2.2⟩
    · exact wfFrom_mono (by omega) (ih hm.2.2.2)

/-- A canonical memory whose addresses all reach `mid` is canonical from `mid` on. -/
theorem wfFrom_of_ge {lo mid : Nat} {m : Memory} (hm : m.wfFrom lo = true) (h : ∀ e ∈ m, mid ≤ e.1) :
    m.wfFrom mid = true := by
  cases m with
  | nil => rfl
  | cons e m =>
    obtain ⟨k, b⟩ := e
    simp only [wfFrom_cons] at *
    exact ⟨h (k, b) (List.mem_cons_self ..), hm.2⟩

theorem read_filter (m : Memory) (f : Nat → Bool) (a : Nat) :
    Memory.read (m.filter fun e => f e.1) a = if f a then m.read a else unlistedByte := by
  induction m with
  | nil => simp
  | cons e m ih =>
    obtain ⟨k, b⟩ := e
    rw [List.filter_cons]
    by_cases hk : k = a
    · subst hk; cases hf : f k <;> simp_all [read_cons]
    · cases hf : f k <;> simp_all [read_cons]

theorem mem_wordCells {a : Nat} {v : Word} {e : Host.Cell} (h : e ∈ wordCells a v) : a ≤ e.1 ∧ e.1 < a + 4 := by
  simp only [wordCells, List.mem_filter, List.mem_cons, List.not_mem_nil, or_false] at h
  rcases h.1 with rfl | rfl | rfl | rfl <;> simp

theorem wfFrom_wordCells {a : Nat} (v : Word) (h : a + 3 < addressCount) : (wordCells a v).wfFrom a = true := by
  have h0 : a < addressCount := by omega
  have h1 : a + 1 < addressCount := by omega
  have h2 : a + 2 < addressCount := by omega
  unfold wordCells
  simp only [List.filter_cons, List.filter_nil]
  split <;> split <;> split <;> split <;> simp_all

theorem read_wordCells (a : Nat) (v : Word) {i : Nat} (hi : i < 4) : (wordCells a v).read (a + i) = byteOf v i := by
  unfold wordCells
  simp only [List.filter_cons, List.filter_nil]
  obtain rfl | rfl | rfl | rfl : i = 0 ∨ i = 1 ∨ i = 2 ∨ i = 3 := by omega
  all_goals split <;> split <;> split <;> split <;> simp_all [read_cons]

/-- The block of `n` words from `base`. -/
theorem block_spec (base n : Nat) (v : Word) (h : base + 4 * n ≤ addressCount) :
    let blk : Memory := (List.range n).flatMap fun k => wordCells (base + 4 * k) v
    blk.wfFrom base = true ∧ (∀ e ∈ blk, base ≤ e.1 ∧ e.1 < base + 4 * n) ∧
      ∀ i, i < 4 * n → Memory.read blk (base + i) = byteOf v (i % 4) := by
  induction n with
  | zero => exact ⟨rfl, by simp, by simp⟩
  | succ n ih =>
    obtain ⟨hwf, hmem, hread⟩ := ih (by omega)
    rw [List.range_succ, List.flatMap_append]
    simp only [List.flatMap_cons, List.flatMap_nil, List.append_nil]
    have hw := wfFrom_wordCells (a := base + 4 * n) v (by omega)
    refine ⟨wfFrom_append (mid := base + 4 * n) hwf (fun e he => (hmem e he).2) hw (by omega), ?_, ?_⟩
    · intro e he
      rcases List.mem_append.1 he with he | he
      · have := hmem e he; omega
      · have := mem_wordCells he; omega
    · intro i hi
      by_cases hlt : i < 4 * n
      · rw [read_append_left]
        · exact hread i hlt
        · intro e he; have := mem_wordCells he; omega
      · rw [read_append_right]
        · have := read_wordCells (base + 4 * n) v (i := i % 4) (by omega)
          rwa [show base + 4 * n + i % 4 = base + i by omega] at this
        · intro e he; have := hmem e he; omega

/-- The fill keeps the canonical form. -/
theorem wf_fillWords {m : Memory} (hm : m.wf = true) {base n : Nat} (v : Word) (h : base + 4 * n ≤ addressCount) :
    (m.fillWords base n v).wf = true := by
  obtain ⟨hwf, hmem, -⟩ := block_spec base n v h
  unfold Memory.fillWords Memory.wf
  refine wfFrom_append (mid := base + 4 * n) (wfFrom_append (mid := base) (wfFrom_filter _ hm) ?_ hwf (Nat.zero_le _)) ?_
    (wfFrom_of_ge (wfFrom_filter _ hm) ?_) (Nat.zero_le _)
  · intro e he; simpa using (List.mem_filter.1 he).2
  · intro e he
    rcases List.mem_append.1 he with he | he
    · have := (List.mem_filter.1 he).2; simp only [decide_eq_true_eq] at this; omega
    · exact (hmem e he).2
  · intro e he; simpa using (List.mem_filter.1 he).2

/-- What the filled memory reads as. -/
theorem read_fillWords (m : Memory) {base n : Nat} (v : Word) (h : base + 4 * n ≤ addressCount) (a : Nat) :
    (m.fillWords base n v).read a =
      if base ≤ a ∧ a < base + 4 * n then byteOf v ((a - base) % 4) else m.read a := by
  obtain ⟨-, hmem, hread⟩ := block_spec base n v h
  have hlow : ∀ e ∈ m.filter fun e => e.1 < base, e.1 < base := fun e he => by simpa using (List.mem_filter.1 he).2
  have hhigh : ∀ e ∈ m.filter fun e => base + 4 * n ≤ e.1, base + 4 * n ≤ e.1 :=
    fun e he => by simpa using (List.mem_filter.1 he).2
  unfold Memory.fillWords
  by_cases h1 : a < base
  · rw [if_neg (by omega), read_append_left, read_append_left, read_filter m (fun k => decide (k < base))]
    · simp [h1]
    · intro e he; have := hmem e he; omega
    · intro e he; have := hhigh e he; omega
  · by_cases h2 : a < base + 4 * n
    · rw [if_pos (by omega), read_append_left, read_append_right]
      · have := hread (a - base) (by omega)
        rwa [show base + (a - base) = a by omega] at this
      · intro e he; have := hlow e he; omega
      · intro e he; have := hhigh e he; omega
    · rw [if_neg (by omega), read_append_right, read_filter m (fun k => decide (base + 4 * n ≤ k))]
      · simp [show base + 4 * n ≤ a by omega]
      · intro e he
        rcases List.mem_append.1 he with he | he
        · have := hlow e he; omega
        · have := hmem e he; omega

end Sys2Proof.Machine
end

