-- ==== Sys2Proof/Laws/Draw.lean ====
section
/-! SUPPORT. What a sequence of word writes does, once for every drawing instruction: `performWrites` is the list form of
`forEach` over pixel writes, and everything else is proved of it. -/

namespace Sys2Proof.Machine

open Sys2Proof

/-- A list of word writes performed in order, stopping at the first that fails. -/
def performWrites (p : Platform) : List (Word × Word) → Memory → DrawResult :=
  forEach fun w => memWrite p w.1 w.2

section Loop
variable {α : Type} (body : α → Memory → DrawResult)

@[simp] theorem forEach_nil (m : Memory) : forEach body [] m = ⟨m, none⟩ := rfl

theorem forEach_cons (e : α) (es : List α) (m : Memory) :
    forEach body (e :: es) m =
      if (body e m).failed = none then forEach body es (body e m).mem else body e m := by
  rw [forEach]
  rcases h : body e m with ⟨m', f⟩
  cases f <;> simp

theorem forEach_append (l l' : List α) (m : Memory) :
    forEach body (l ++ l') m =
      if (forEach body l m).failed = none then forEach body l' (forEach body l m).mem else forEach body l m := by
  induction l generalizing m with
  | nil => simp
  | cons e es ih =>
    rw [List.cons_append, forEach_cons, forEach_cons, ih]
    by_cases h : (body e m).failed = none <;> simp [h]

end Loop

/-- A loop whose bodies are lists of writes is one list of writes. -/
theorem forEach_eq_performWrites {α : Type} (p : Platform) {body : α → Memory → DrawResult} {f : α → List (Word × Word)}
    (h : ∀ e m, body e m = performWrites p (f e) m) (l : List α) (m : Memory) :
    forEach body l m = performWrites p (l.flatMap f) m := by
  induction l generalizing m with
  | nil => rfl
  | cons e es ih =>
    rw [forEach_cons, List.flatMap_cons, performWrites, forEach_append, h, ih]
    rfl

theorem performWrites_cons (p : Platform) (w : Word × Word) (ws : List (Word × Word)) (m : Memory) :
    performWrites p (w :: ws) m =
      if validWord p (u32 w.1) = true then performWrites p ws (m.writeWord (u32 w.1) w.2) else ⟨m, some w.1⟩ := by
  rw [performWrites, forEach_cons]
  unfold memWrite
  by_cases h : validWord p (u32 w.1) = true <;> simp [h]

@[simp] theorem writeWords_nil (m : Memory) : m.writeWords [] = m := rfl

@[simp] theorem writeWords_cons (m : Memory) (w : Word × Word) (ws : List (Word × Word)) :
    m.writeWords (w :: ws) = (m.writeWord (u32 w.1) w.2).writeWords ws := rfl

/-- Everything a list of writes can do: a prefix of valid writes is performed, and either it is the whole list or the next
write is to an invalid word, whose address is reported. -/
theorem performWrites_cases (p : Platform) (ws : List (Word × Word)) (m : Memory) :
    ∃ done rest, ws = done ++ rest ∧ (∀ w ∈ done, validWord p (u32 w.1) = true) ∧
      (performWrites p ws m).mem = m.writeWords done ∧
      ((rest = [] ∧ (performWrites p ws m).failed = none) ∨
        ∃ w tail, rest = w :: tail ∧ validWord p (u32 w.1) = false ∧ (performWrites p ws m).failed = some w.1) := by
  induction ws generalizing m with
  | nil => exact ⟨[], [], rfl, by simp, rfl, .inl ⟨rfl, rfl⟩⟩
  | cons w ws ih =>
    rw [performWrites_cons]
    by_cases h : validWord p (u32 w.1) = true
    · rw [if_pos h]
      obtain ⟨done, rest, rfl, hd, hm, hr⟩ := ih (m.writeWord (u32 w.1) w.2)
      exact ⟨w :: done, rest, rfl, by simpa [h] using hd, hm, hr⟩
    · rw [if_neg h]
      exact ⟨[], w :: ws, rfl, by simp, rfl, .inr ⟨w, ws, rfl, by simpa using h, rfl⟩⟩

/-- When every write is to a valid word all of them are performed. -/
theorem performWrites_of_valid {p : Platform} {ws : List (Word × Word)} (h : ∀ w ∈ ws, validWord p (u32 w.1) = true)
    (m : Memory) : performWrites p ws m = ⟨m.writeWords ws, none⟩ := by
  induction ws generalizing m with
  | nil => rfl
  | cons w ws ih =>
    simp only [List.mem_cons, forall_eq_or_imp] at h
    rw [performWrites_cons, if_pos h.1, ih h.2, writeWords_cons]

/-- A valid word is aligned, and its last byte is inside the address space. -/
theorem validWord_bounds {p : Platform} {a : Word} (h : validWord p (u32 a) = true) :
    u32 a % 4 = 0 ∧ u32 a + 3 < addressCount := by
  have ha : u32 a % 4 = 0 := by
    simp only [validWord, Bool.and_eq_true, beq_iff_eq] at h
    exact h.1.1.1.1
  have hlt : u32 a < 4294967296 := a.isLt
  refine ⟨ha, ?_⟩
  unfold addressCount
  omega

theorem wf_writeWords {p : Platform} {ws : List (Word × Word)} (h : ∀ w ∈ ws, validWord p (u32 w.1) = true)
    {m : Memory} (hm : m.wf = true) : (m.writeWords ws).wf = true := by
  induction ws generalizing m with
  | nil => exact hm
  | cons w ws ih =>
    simp only [List.mem_cons, forall_eq_or_imp] at h
    exact ih h.2 (wf_writeWord hm (validWord_bounds h.1).2 _)

/-- Word writes leave every byte outside their words alone. -/
theorem read_writeWords_ne {ws : List (Word × Word)} {a : Nat} (h : ∀ w ∈ ws, a < u32 w.1 ∨ u32 w.1 + 4 ≤ a)
    (m : Memory) : (m.writeWords ws).read a = m.read a := by
  induction ws generalizing m with
  | nil => rfl
  | cons w ws ih =>
    simp only [List.mem_cons, forall_eq_or_imp] at h
    rw [writeWords_cons, ih h.2, read_writeWord_ne _ _ h.1]

/-- Word writes of one value to aligned words: every byte of a written word is the value's. -/
theorem read_writeWords_const {p : Platform} {ws : List (Word × Word)} {c : Word}
    (h : ∀ w ∈ ws, validWord p (u32 w.1) = true ∧ w.2 = c) {m : Memory} (hm : m.wf = true) (a : Nat) :
    (m.writeWords ws).read a =
      if ∃ w ∈ ws, u32 w.1 ≤ a ∧ a < u32 w.1 + 4 then byteOf c (a % 4) else m.read a := by
  induction ws generalizing m with
  | nil => simp
  | cons w ws ih =>
    simp only [List.mem_cons, forall_eq_or_imp] at h
    obtain ⟨⟨hv, hc⟩, hws⟩ := h
    have hb := validWord_bounds hv
    rw [writeWords_cons, ih hws (wf_writeWord hm hb.2 _), read_writeWord hm hb.2]
    by_cases h1 : ∃ w' ∈ ws, u32 w'.1 ≤ a ∧ a < u32 w'.1 + 4
    · rw [if_pos h1, if_pos]
      obtain ⟨w', hw', h'⟩ := h1
      exact ⟨w', List.mem_cons_of_mem _ hw', h'⟩
    · rw [if_neg h1]
      by_cases h2 : u32 w.1 ≤ a ∧ a < u32 w.1 + 4
      · rw [if_pos h2, if_pos ⟨w, List.mem_cons_self .., h2⟩, hc]
        congr 1
        omega
      · rw [if_neg h2, if_neg]
        rintro ⟨w', hw', h'⟩
        rcases List.mem_cons.1 hw' with rfl | hw'
        · exact h2 h'
        · exact h1 ⟨w', hw', h'⟩

/-! ### Bytes stay at valid addresses -/

theorem inside_iff {p : Platform} {m : Memory} : m.inside p = true ↔ ∀ e ∈ m, validByte p e.1 = true := by
  simp [Memory.inside]

theorem inside_writeByte {p : Platform} {m : Memory} (hm : m.inside p = true) {a : Nat} (ha : validByte p a = true)
    (b : Byte) : (m.writeByte a b).inside p = true := by
  induction m with
  | nil => unfold Memory.writeByte; split <;> simp [Memory.inside, ha]
  | cons e m ih =>
    obtain ⟨k, c⟩ := e
    have hk : validByte p k = true ∧ Memory.inside p m = true := by simpa [Memory.inside] using hm
    unfold Memory.writeByte
    split
    · split
      · exact hm
      · rw [inside_iff]; simpa [ha, hk.1] using inside_iff.1 hk.2
    · split
      · split
        · exact hk.2
        · rw [inside_iff]; simpa [ha] using inside_iff.1 hk.2
      · rw [inside_iff]; simpa [hk.1] using inside_iff.1 (ih hk.2)

theorem inside_writeWord {p : Platform} {m : Memory} (hm : m.inside p = true) {a : Nat} (ha : validWord p a = true)
    (v : Word) : (m.writeWord a v).inside p = true := by
  simp only [validWord, Bool.and_eq_true] at ha
  obtain ⟨⟨⟨⟨-, h0⟩, h1⟩, h2⟩, h3⟩ := ha
  exact inside_writeByte (inside_writeByte (inside_writeByte (inside_writeByte hm h0 _) h1 _) h2 _) h3 _

theorem inside_writeWords {p : Platform} {ws : List (Word × Word)} (h : ∀ w ∈ ws, validWord p (u32 w.1) = true)
    {m : Memory} (hm : m.inside p = true) : (m.writeWords ws).inside p = true := by
  induction ws generalizing m with
  | nil => exact hm
  | cons w ws ih =>
    simp only [List.mem_cons, forall_eq_or_imp] at h
    exact ih h.2 (inside_writeWord hm h.1 _)

end Sys2Proof.Machine
end

