-- ==== Sys2Proof/Laws/Framebuffer.lean ====
section
/-! SUPPORT. The framebuffer unit: the address calculator on the grid, each generator as a list of word writes, and the
one-pass whole-grid fill equal to the loop. -/

namespace Sys2Proof.Machine

open Sys2Proof

theorem fbBaseOk_iff (c : Config) :
    c.fbBaseOk = true ↔ u32 c.fbBase % 4 = 0 ∧ u32 c.fbBase + 0x100000 ≤ 4294967296 := by
  simp [Config.fbBaseOk, fbBytes, fbWidth, fbHeight, fbPixelBytes, addressCount, u32]

theorem fbBaseOk_of_wellFormed {c : Config} (h : c.wellFormed = true) : c.fbBaseOk = true := by
  simp only [Config.wellFormed, Bool.and_eq_true] at h
  exact h.1

/-- The address calculator does not wrap on the grid (R171). -/
theorem pixelAddr_toNat {c : Config} (hc : c.fbBaseOk = true) {x y : Nat} (hx : x < 512) (hy : y < 512) :
    u32 (pixelAddr c x y) = pixelByte c x y := by
  have := (fbBaseOk_iff c).1 hc
  unfold pixelAddr pixelByte u32 at *
  simp only [fbWidth, fbPixelBytes, BitVec.toNat_add, BitVec.toNat_ofNat]
  omega

theorem s32_ofNat {n : Nat} (h : n < 512) : s32 (BitVec.ofNat 32 n) = n := by
  unfold s32
  rw [BitVec.toInt_eq_toNat_cond, BitVec.toNat_ofNat]
  omega

theorem s32_toNat_lt {x : Word} (h1 : s32 x < 512) : (s32 x).toNat < 512 := by omega

theorem inBounds_iff (x y : Word) :
    inBounds x y = true ↔ (0 ≤ s32 x ∧ s32 x < 512) ∧ (0 ≤ s32 y ∧ s32 y < 512) := by
  have hw : (fbWidth : Int) = 512 := rfl
  have hh : (fbHeight : Int) = 512 := rfl
  simp only [inBounds, Bool.and_eq_true, decide_eq_true_eq, hw, hh, and_assoc]

/-- A pixel write is its list of at most one word write (R173). -/
theorem pixelWrite_eq (p : Platform) (x y c : Word) (m : Memory) :
    pixelWrite p x y c m = performWrites p (pixelWrites p.cfg x y c) m := by
  unfold pixelWrite pixelWrites
  by_cases h : inBounds x y = true
  · simp only [h, if_true, performWrites_cons]
    rfl
  · simp only [h]; rfl

theorem flatMap_congr_mem {α β : Type} {l : List α} {f g : α → List β} (h : ∀ e ∈ l, f e = g e) :
    l.flatMap f = l.flatMap g := by
  induction l with
  | nil => rfl
  | cons e l ih =>
    rw [List.flatMap_cons, List.flatMap_cons, h e (List.mem_cons_self ..), ih fun e' he' => h e' (List.mem_cons_of_mem _ he')]

theorem columns_eq : columns = (List.range 512).map (BitVec.ofNat 32) := rfl
theorem rows_eq : rows = (List.range 512).map (BitVec.ofNat 32) := rfl

/-- The row generator is the row's list of word writes. -/
theorem fillRow_eq (p : Platform) (y c : Word) (m : Memory) :
    fillRow p y c m = performWrites p (rowWrites p.cfg y c) m := by
  unfold fillRow
  rw [forEach_eq_performWrites p (f := fun x => pixelWrites p.cfg x y c) (fun x m => pixelWrite_eq p x y c m)]
  refine congrArg (fun ws => performWrites p ws m) ?_
  rw [columns_eq, List.flatMap_map, rowWrites]
  split
  · rename_i hy
    rw [List.map_eq_flatMap]
    refine flatMap_congr_mem fun x hx => ?_
    have hx := List.mem_range.1 hx
    have hb : inBounds (BitVec.ofNat 32 x) y = true := by rw [inBounds_iff, s32_ofNat hx]; omega
    simp [pixelWrites, hb, s32_ofNat hx]
  · rename_i hy
    rw [List.flatMap_eq_nil_iff]
    intro x _
    have hb : inBounds (BitVec.ofNat 32 x) y = false := by
      rw [Bool.eq_false_iff, ne_eq, inBounds_iff]; exact fun h => hy h.2
    simp [pixelWrites, hb]

/-- The column generator is the column's list of word writes. -/
theorem fillCol_eq (p : Platform) (x c : Word) (m : Memory) :
    fillCol p x c m = performWrites p (colWrites p.cfg x c) m := by
  unfold fillCol
  rw [forEach_eq_performWrites p (f := fun y => pixelWrites p.cfg x y c) (fun y m => pixelWrite_eq p x y c m)]
  refine congrArg (fun ws => performWrites p ws m) ?_
  rw [rows_eq, List.flatMap_map, colWrites]
  split
  · rename_i hx
    rw [List.map_eq_flatMap]
    refine flatMap_congr_mem fun y hy => ?_
    have hy := List.mem_range.1 hy
    have hb : inBounds x (BitVec.ofNat 32 y) = true := by rw [inBounds_iff, s32_ofNat hy]; omega
    simp [pixelWrites, hb, s32_ofNat hy]
  · rename_i hx
    rw [List.flatMap_eq_nil_iff]
    intro y _
    have hb : inBounds x (BitVec.ofNat 32 y) = false := by
      rw [Bool.eq_false_iff, ne_eq, inBounds_iff]; exact fun h => hx h.1
    simp [pixelWrites, hb]

/-- The whole-grid loop is the grid's list of word writes. -/
theorem fillAllLoop_eq (p : Platform) (c : Word) (m : Memory) :
    fillAllLoop p c m = performWrites p (gridWrites p.cfg c) m := by
  unfold fillAllLoop
  rw [forEach_eq_performWrites p (f := fun y => rowWrites p.cfg y c) (fun y m => fillRow_eq p y c m)]
  refine congrArg (fun ws => performWrites p ws m) ?_
  rw [rows_eq, List.flatMap_map, gridWrites]
  refine flatMap_congr_mem fun y hy => ?_
  have hy := List.mem_range.1 hy
  have hy' : (y : Int) < 512 := by omega
  simp [rowWrites, s32_ofNat hy, hy']

/-- The sprite generator is the sprite's list of word writes. -/
theorem drawSprite_eq (p : Platform) (xo : Word) (m : Memory) :
    drawSprite p xo m = performWrites p (spriteWrites p.cfg xo) m := by
  unfold drawSprite
  exact forEach_eq_performWrites p (fun e m => pixelWrite_eq p _ _ e.colour m) _ m

/-- Rows that are signed 32-bit numbers are not changed by reading them as patterns (R180, log 15). -/
theorem spriteWrites_eq_spritePixels {c : Config} (h : c.spriteRowsFit) (xo : Word) :
    spriteWrites c xo = spritePixels c xo := by
  refine flatMap_congr_mem fun e he => ?_
  have hy : s32 (wrap32 (c.spriteBaseY + e.dy)) = c.spriteBaseY + e.dy := by
    have := h e he
    unfold s32 wrap32
    rw [BitVec.toInt_ofInt, Int.bmod_def]
    omega
  have hx : wrap32 (s32 xo + e.dx) = xo + BitVec.ofInt 32 e.dx := by
    unfold s32 wrap32
    rw [BitVec.ofInt_add, BitVec.ofInt_toInt]
  rw [hx]
  unfold pixelWrites
  simp only [inBounds_iff, hy]
  rfl

/-- The writes of the whole grid are the pixels of the grid. -/
theorem mem_gridWrites {c : Config} {colour : Word} {w : Word × Word} :
    w ∈ gridWrites c colour ↔ ∃ x y, x < 512 ∧ y < 512 ∧ w = (pixelAddr c x y, colour) := by
  simp only [gridWrites, List.mem_flatMap, List.mem_map, List.mem_range]
  constructor
  · rintro ⟨y, hy, x, hx, rfl⟩; exact ⟨x, y, hx, hy, rfl⟩
  · rintro ⟨x, y, hx, hy, rfl⟩; exact ⟨y, hy, x, hx, rfl⟩

/-- Where the platform can draw, every pixel's word is valid (R41, R171). -/
theorem validWord_pixel {p : Platform} (hp : p.CanDraw) {x y : Nat} (hx : x < 512) (hy : y < 512) :
    validWord p (u32 (pixelAddr p.cfg x y)) = true := by
  have hc := fbBaseOk_of_wellFormed hp.1
  have hb := (fbBaseOk_iff p.cfg).1 hc
  rw [pixelAddr_toNat hc hx hy]
  unfold pixelByte
  have hv : ∀ k, k < 4 → validByte p (u32 p.cfg.fbBase + (y * 512 + x) * 4 + k) = true :=
    fun k hk => hp.2 _ (by omega) (by omega)
  have h0 := hv 0 (by omega)
  have h1 := hv 1 (by omega)
  have h2 := hv 2 (by omega)
  have h3 := hv 3 (by omega)
  have hm : (u32 p.cfg.fbBase + (y * 512 + x) * 4) % 4 = 0 := by omega
  simp only [validWord, Bool.and_eq_true, beq_iff_eq]
  exact ⟨⟨⟨⟨hm, h0⟩, h1⟩, h2⟩, h3⟩

/-- A region that holds the framebuffer makes it drawable. -/
theorem validWord_of_framebufferValid {p : Platform} (h : framebufferValid p = true) {x y : Nat} (hx : x < 512)
    (hy : y < 512) : validWord p (u32 (pixelAddr p.cfg x y)) = true := by
  simp only [framebufferValid, Bool.and_eq_true, List.any_eq_true, decide_eq_true_eq] at h
  obtain ⟨hc, r, hr, hlo, hhi⟩ := h
  have hb := (fbBaseOk_iff p.cfg).1 hc
  rw [pixelAddr_toNat hc hx hy]
  unfold pixelByte
  have hbytes : fbBytes = 0x100000 := rfl
  have hv : ∀ a, u32 p.cfg.fbBase ≤ a → a < u32 p.cfg.fbBase + 0x100000 → validByte p a = true := by
    intro a h1 h2
    simp only [validByte, List.any_eq_true, Bool.and_eq_true, decide_eq_true_eq]
    exact ⟨r, hr, by omega, by omega⟩
  have h0 := hv (u32 p.cfg.fbBase + (y * 512 + x) * 4) (by omega) (by omega)
  have h1 := hv (u32 p.cfg.fbBase + (y * 512 + x) * 4 + 1) (by omega) (by omega)
  have h2 := hv (u32 p.cfg.fbBase + (y * 512 + x) * 4 + 2) (by omega) (by omega)
  have h3 := hv (u32 p.cfg.fbBase + (y * 512 + x) * 4 + 3) (by omega) (by omega)
  have hm : (u32 p.cfg.fbBase + (y * 512 + x) * 4) % 4 = 0 := by omega
  simp only [validWord, Bool.and_eq_true, beq_iff_eq]
  exact ⟨⟨⟨⟨hm, h0⟩, h1⟩, h2⟩, h3⟩

/-- A byte lies in some pixel's word exactly when it lies in the framebuffer region (R171, R181). -/
theorem covered_iff {c : Config} (hc : c.fbBaseOk = true) (colour : Word) (a : Nat) :
    (∃ w ∈ gridWrites c colour, u32 w.1 ≤ a ∧ a < u32 w.1 + 4) ↔
      u32 c.fbBase ≤ a ∧ a < u32 c.fbBase + 0x100000 := by
  constructor
  · rintro ⟨w, hw, h⟩
    obtain ⟨x, y, hx, hy, rfl⟩ := mem_gridWrites.1 hw
    simp only [pixelAddr_toNat hc hx hy, pixelByte] at h
    omega
  · intro h
    have hx : (a - u32 c.fbBase) / 4 % 512 < 512 := by omega
    have hy : (a - u32 c.fbBase) / 4 / 512 < 512 := by omega
    refine ⟨_, mem_gridWrites.2 ⟨_, _, hx, hy, rfl⟩, ?_⟩
    simp only [pixelAddr_toNat hc hx hy, pixelByte]
    omega

/-- The one-pass whole-grid fill is the loop, on every platform and every memory. -/
theorem fillAll_eq_loop (p : Platform) (c : Word) (m : Memory) : fillAll p c m = fillAllLoop p c m := by
  unfold fillAll
  split
  · rename_i h
    simp only [Bool.and_eq_true] at h
    obtain ⟨hfb, hm⟩ := h
    have hc : p.cfg.fbBaseOk = true := by simp only [framebufferValid, Bool.and_eq_true] at hfb; exact hfb.1
    have hb := (fbBaseOk_iff p.cfg).1 hc
    have hvalid : ∀ w ∈ gridWrites p.cfg c, validWord p (u32 w.1) = true ∧ w.2 = c := by
      intro w hw
      obtain ⟨x, y, hx, hy, rfl⟩ := mem_gridWrites.1 hw
      exact ⟨validWord_of_framebufferValid hfb hx hy, rfl⟩
    have hle : u32 p.cfg.fbBase + 4 * (fbWidth * fbHeight) ≤ addressCount := by
      simp only [fbWidth, fbHeight, addressCount]; omega
    rw [fillAllLoop_eq, performWrites_of_valid fun w hw => (hvalid w hw).1]
    refine congrArg (DrawResult.mk · none) ?_
    refine ext_of_wf (wf_fillWords hm c hle) (wf_writeWords (fun w hw => (hvalid w hw).1) hm) fun a => ?_
    rw [read_fillWords m c hle, read_writeWords_const hvalid hm]
    have hsize : 4 * (fbWidth * fbHeight) = 0x100000 := rfl
    simp only [covered_iff hc, hsize]
    by_cases h1 : u32 p.cfg.fbBase ≤ a ∧ a < u32 p.cfg.fbBase + 0x100000
    · rw [if_pos h1, if_pos h1, show (a - u32 p.cfg.fbBase) % 4 = a % 4 by omega]
    · rw [if_neg h1, if_neg h1]
  · rfl

/-- The whole-grid fill is the grid's list of word writes. -/
theorem fillAll_eq (p : Platform) (c : Word) (m : Memory) :
    fillAll p c m = performWrites p (gridWrites p.cfg c) m := by
  rw [fillAll_eq_loop, fillAllLoop_eq]

end Sys2Proof.Machine
end

