-- ==== Sys2Proof/Laws/State.lean ====
section
/-! SUPPORT. One lemma per field per update of State, so that no proof unfolds a record update; the register port. -/

namespace Sys2Proof.Machine

open Sys2Proof

section Complete
variable (s : State)
@[simp] theorem complete_x : s.complete.x = s.x := rfl
@[simp] theorem complete_mem : s.complete.mem = s.mem := rfl
@[simp] theorem complete_out : s.complete.out = s.out := rfl
@[simp] theorem complete_pc : s.complete.pc = s.pc := rfl
@[simp] theorem complete_status : s.complete.status = s.status := rfl
@[simp] theorem complete_plat : s.complete.plat = s.plat := rfl
@[simp] theorem complete_outcome : s.complete.outcome = some .next := rfl
end Complete

section RequestTransfer
variable (s : State) (t : Word)
@[simp] theorem requestTransfer_x : (s.requestTransfer t).x = s.x := rfl
@[simp] theorem requestTransfer_mem : (s.requestTransfer t).mem = s.mem := rfl
@[simp] theorem requestTransfer_out : (s.requestTransfer t).out = s.out := rfl
@[simp] theorem requestTransfer_pc : (s.requestTransfer t).pc = s.pc := rfl
@[simp] theorem requestTransfer_status : (s.requestTransfer t).status = s.status := rfl
@[simp] theorem requestTransfer_plat : (s.requestTransfer t).plat = s.plat := rfl
@[simp] theorem requestTransfer_outcome : (s.requestTransfer t).outcome = some (.transfer t) := rfl
end RequestTransfer

section Terminate
variable (s : State)
@[simp] theorem terminate_x : s.terminate.x = s.x := rfl
@[simp] theorem terminate_mem : s.terminate.mem = s.mem := rfl
@[simp] theorem terminate_out : s.terminate.out = s.out := rfl
@[simp] theorem terminate_pc : s.terminate.pc = s.pc := rfl
@[simp] theorem terminate_status : s.terminate.status = s.status := rfl
@[simp] theorem terminate_plat : s.terminate.plat = s.plat := rfl
@[simp] theorem terminate_outcome : s.terminate.outcome = some .terminate := rfl
end Terminate

section Raise
variable (s : State) (k : FailKind) (info : Word)
@[simp] theorem raise_x : (s.raise k info).x = s.x := rfl
@[simp] theorem raise_mem : (s.raise k info).mem = s.mem := rfl
@[simp] theorem raise_out : (s.raise k info).out = s.out := rfl
@[simp] theorem raise_pc : (s.raise k info).pc = s.pc := rfl
@[simp] theorem raise_status : (s.raise k info).status = s.status := rfl
@[simp] theorem raise_plat : (s.raise k info).plat = s.plat := rfl
@[simp] theorem raise_outcome : (s.raise k info).outcome = some (.fail k info) := rfl
end Raise

section Emit
variable (s : State) (bs : List Byte)
@[simp] theorem emit_x : (s.emit bs).x = s.x := rfl
@[simp] theorem emit_mem : (s.emit bs).mem = s.mem := rfl
@[simp] theorem emit_out : (s.emit bs).out = s.out ++ bs := rfl
@[simp] theorem emit_pc : (s.emit bs).pc = s.pc := rfl
@[simp] theorem emit_status : (s.emit bs).status = s.status := rfl
@[simp] theorem emit_plat : (s.emit bs).plat = s.plat := rfl
@[simp] theorem emit_outcome : (s.emit bs).outcome = s.outcome := rfl
@[simp] theorem emit_memRead (a : Word) : (s.emit bs).memRead a = s.memRead a := rfl
end Emit

section StopFailed
variable (s : State) (k : FailKind) (info : Word)
@[simp] theorem stopFailed_x : (s.stopFailed k info).x = s.x := rfl
@[simp] theorem stopFailed_mem : (s.stopFailed k info).mem = s.mem := rfl
@[simp] theorem stopFailed_out : (s.stopFailed k info).out = s.out := rfl
@[simp] theorem stopFailed_pc : (s.stopFailed k info).pc = s.pc := rfl
@[simp] theorem stopFailed_status : (s.stopFailed k info).status = .failed k info := rfl
@[simp] theorem stopFailed_plat : (s.stopFailed k info).plat = s.plat := rfl
@[simp] theorem stopFailed_outcome : (s.stopFailed k info).outcome = none := rfl
end StopFailed

section WriteReg
variable (s : State) (r : Reg) (v : Word)
@[simp] theorem writeReg_mem : (s.writeReg r v).mem = s.mem := by unfold State.writeReg; split <;> rfl
@[simp] theorem writeReg_out : (s.writeReg r v).out = s.out := by unfold State.writeReg; split <;> rfl
@[simp] theorem writeReg_pc : (s.writeReg r v).pc = s.pc := by unfold State.writeReg; split <;> rfl
@[simp] theorem writeReg_status : (s.writeReg r v).status = s.status := by unfold State.writeReg; split <;> rfl
@[simp] theorem writeReg_plat : (s.writeReg r v).plat = s.plat := by unfold State.writeReg; split <;> rfl
@[simp] theorem writeReg_outcome : (s.writeReg r v).outcome = s.outcome := by unfold State.writeReg; split <;> rfl
end WriteReg

section ApplyOutcome
variable (s : State)
@[simp] theorem applyOutcome_x : s.applyOutcome.x = s.x := by unfold State.applyOutcome; split <;> rfl
@[simp] theorem applyOutcome_mem : s.applyOutcome.mem = s.mem := by unfold State.applyOutcome; split <;> rfl
@[simp] theorem applyOutcome_out : s.applyOutcome.out = s.out := by unfold State.applyOutcome; split <;> rfl
@[simp] theorem applyOutcome_plat : s.applyOutcome.plat = s.plat := by unfold State.applyOutcome; split <;> rfl
@[simp] theorem applyOutcome_outcome : s.applyOutcome.outcome = none := by
  unfold State.applyOutcome; split <;> first | assumption | rfl
end ApplyOutcome

/-- A register reads the same in two states with the same registers and platform. -/
theorem readReg_congr {s t : State} (hx : t.x = s.x) (hp : t.plat = s.plat) (r : Reg) : t.readReg r = s.readReg r := by
  simp [State.readReg, State.hardwired, hx, hp]

@[simp] theorem readReg_complete (s : State) (r : Reg) : s.complete.readReg r = s.readReg r := rfl
@[simp] theorem readReg_emit (s : State) (bs : List Byte) (r : Reg) : (s.emit bs).readReg r = s.readReg r := rfl

/-- Which register is hard-wired depends on the configuration only. -/
@[simp] theorem hardwired_writeReg (s : State) (r r' : Reg) (v : Word) :
    (s.writeReg r v).hardwired r' = s.hardwired r' := by
  simp [State.hardwired]

/-- The register port (R28): a read returns the value of the most recent write to the same index, and a hard-wired
register ignores writes (R21). -/
@[simp] theorem readReg_writeReg (s : State) (r r' : Reg) (v : Word) :
    (s.writeReg r v).readReg r' = if r' = r ∧ s.hardwired r = false then v else s.readReg r' := by
  unfold State.readReg
  rw [hardwired_writeReg]
  unfold State.writeReg
  by_cases h : s.hardwired r = true
  · simp [h]
  · by_cases hr : r' = r
    · subst hr; simp [h]
    · have : (r : Nat) ≠ (r' : Nat) := fun e => hr (Fin.ext e.symm)
      simp [h, hr, Vector.getElem_set_ne, this]

end Sys2Proof.Machine
end

