-- ==== Sys2Proof/Laws/Exec.lean ====
section
/-! SUPPORT. What each shared operation of the meanings can do: finishing an arithmetic instruction, the bank, a branch, the
string loop, and finishing a drawing instruction. Proofs about exec cite these. -/

namespace Sys2Proof.Machine

open Sys2Proof

/-! ### Readings -/

theorem wrap32_u32_add (a : Word) (n : Nat) : wrap32 (u32 a + n) = a + BitVec.ofNat 32 n := by
  apply BitVec.eq_of_toNat_eq
  simp only [wrap32, u32, BitVec.toNat_add, BitVec.toNat_ofNat]
  rw [show ((a.toNat : Int) + (n : Int)) = ((a.toNat + n : Nat) : Int) by omega, BitVec.ofInt_natCast, BitVec.toNat_ofNat]
  omega

theorem wrap32_u32_succ (a : Word) : wrap32 (u32 a + 1) = a + 1#32 := wrap32_u32_add a 1

theorem wrap32_u32_four (a : Word) : wrap32 (u32 a + 4) = a + 4#32 := wrap32_u32_add a 4

/-! ### Arithmetic -/

/-- Finishing an arithmetic instruction is its completion with the value in the destination (R110, R126). -/
theorem finishReg_result (rd : Reg) (v : Word) (s : State) :
    ∃ t, finishReg rd v s = .next t ∧ RegisterResult s t rd v := by
  refine ⟨_, rfl, fun r => ?_, ?_, ?_, ⟨?_, ?_, ?_⟩, rfl⟩ <;> simp

/-- DRAIN's loop touches registers only. -/
theorem drainLoop_frame (js : List Nat) (s : State) (n : Nat) :
    (drainLoop js s n).1.mem = s.mem ∧ (drainLoop js s n).1.out = s.out ∧ SameDriver s (drainLoop js s n).1 := by
  induction js generalizing s n with
  | nil => exact ⟨rfl, rfl, rfl, rfl, rfl⟩
  | cons j js ih =>
    unfold drainLoop
    dsimp only
    split
    · simpa [SameDriver] using ih (s.writeReg (bankReg s.plat.cfg j) _) (n + 1)
    · exact ih s n

/-- DRAIN's loop leaves every register outside the indices it visits alone. -/
theorem drainLoop_other (js : List Nat) (s : State) (n : Nat) (r : Reg)
    (h : ∀ j ∈ js, r ≠ bankReg s.plat.cfg j) : (drainLoop js s n).1.readReg r = s.readReg r := by
  induction js generalizing s n with
  | nil => rfl
  | cons j js ih =>
    simp only [List.mem_cons, forall_eq_or_imp] at h
    unfold drainLoop
    dsimp only
    split
    · rw [ih _ _ (by simpa using h.2)]
      simp [h.1]
    · exact ih s n h.2

/-- A hard-wired register reads as zero (R21). -/
theorem readReg_hardwired {s : State} {r : Reg} (h : s.hardwired r = true) : s.readReg r = 0#32 := by
  simp [State.readReg, h]

/-- A positive register is not hard-wired. -/
theorem hardwired_of_positive {s : State} {r : Reg} (h : isPositive (s.readReg r) = true) : s.hardwired r = false := by
  by_cases hw : s.hardwired r = true
  · rw [readReg_hardwired hw] at h; exact absurd h (by decide)
  · simpa using hw

/-- DRAIN's loop over distinct bank registers (R123): each visited register is one less if it was positive and unchanged
otherwise, and the count goes up by the number that were positive. -/
theorem drainLoop_bank (js : List Nat) (s : State) (n : Nat)
    (hinj : ∀ j ∈ js, ∀ k ∈ js, bankReg s.plat.cfg j = bankReg s.plat.cfg k → j = k) (hnd : js.Nodup) :
    (∀ j ∈ js, (drainLoop js s n).1.readReg (bankReg s.plat.cfg j) =
      if isPositive (s.readReg (bankReg s.plat.cfg j)) = true then
        wrap32 (s32 (s.readReg (bankReg s.plat.cfg j)) - 1)
      else s.readReg (bankReg s.plat.cfg j)) ∧
    (drainLoop js s n).2 = n + (js.filter fun j => isPositive (s.readReg (bankReg s.plat.cfg j))).length := by
  induction js generalizing s n with
  | nil => exact ⟨by simp, rfl⟩
  | cons j js ih =>
    rw [List.nodup_cons] at hnd
    have hne : ∀ k ∈ js, bankReg s.plat.cfg j ≠ bankReg s.plat.cfg k := fun k hk e =>
      hnd.1 (hinj j (List.mem_cons_self ..) k (List.mem_cons_of_mem _ hk) e ▸ hk)
    have hinj' : ∀ k ∈ js, ∀ l ∈ js, bankReg s.plat.cfg k = bankReg s.plat.cfg l → k = l := fun k hk l hl =>
      hinj k (List.mem_cons_of_mem _ hk) l (List.mem_cons_of_mem _ hl)
    unfold drainLoop
    dsimp only
    split
    · rename_i hpos
      have hw := hardwired_of_positive hpos
      have ih := ih (s.writeReg (bankReg s.plat.cfg j) (wrap32 (s32 (s.readReg (bankReg s.plat.cfg j)) - 1))) (n + 1)
        (by simpa using hinj') hnd.2
      simp only [writeReg_plat] at ih
      have hread : ∀ k ∈ js, (s.writeReg (bankReg s.plat.cfg j)
          (wrap32 (s32 (s.readReg (bankReg s.plat.cfg j)) - 1))).readReg (bankReg s.plat.cfg k)
            = s.readReg (bankReg s.plat.cfg k) := fun k hk => by
        rw [readReg_writeReg, if_neg fun e => hne k hk e.1.symm]
      refine ⟨?_, ?_⟩
      · simp only [List.mem_cons, forall_eq_or_imp]
        refine ⟨?_, fun k hk => ?_⟩
        · rw [drainLoop_other _ _ _ _ (by simpa using hne), readReg_writeReg, if_pos ⟨rfl, hw⟩, if_pos hpos]
        · rw [ih.1 k hk, hread k hk]
      · rw [ih.2, List.filter_cons, if_pos hpos, List.length_cons]
        rw [List.filter_congr fun k hk => by rw [hread k hk]]
        omega
    · rename_i hpos
      have ih := ih s n hinj' hnd.2
      refine ⟨?_, ?_⟩
      · simp only [List.mem_cons, forall_eq_or_imp]
        exact ⟨by rw [drainLoop_other _ _ _ _ hne, if_neg hpos], ih.1⟩
      · rw [ih.2, List.filter_cons, if_neg hpos]

/-- In a configuration R9 allows the bank registers are distinct. -/
theorem bankReg_injective {c : Config} (hc : c.wellFormed = true) {j k : Nat} (hj : j < 8) (hk : k < 8)
    (h : bankReg c j = bankReg c k) : j = k := by
  have hb : c.bankBase ≤ 24 := by
    simp only [Config.wellFormed, Config.bankBaseOk, Bool.and_eq_true, decide_eq_true_eq] at hc
    exact hc.2
  have := congrArg Fin.val h
  simp only [bankReg, Fin.val_ofNat] at this
  omega

/-- In a configuration R9 allows, the bank by index is the list of the registers DRAIN and SUMBANK visit (R22). -/
theorem bankRegisters_eq {c : Config} (hc : c.wellFormed = true) : bankRegisters c = bankIndices.map (bankReg c) := by
  have hb : c.bankBase ≤ 24 := by
    simp only [Config.wellFormed, Config.bankBaseOk, Bool.and_eq_true, decide_eq_true_eq] at hc
    exact hc.2
  have key : ∀ b : Fin 25, ((List.finRange 32).filter fun r => decide (b.val ≤ r.val ∧ r.val < b.val + 8))
      = bankIndices.map fun j => Fin.ofNat 32 (b.val + j) := by decide +kernel
  exact key ⟨c.bankBase, by omega⟩

/-! ### Branches -/

/-- A branch sets the outcome and nothing else (R140). -/
theorem branchIf_eq (taken : Bool) (imm : Half) (s : State) :
    branchIf taken imm s =
      .next { s with outcome := some (if taken then .transfer (branchTarget s.pc imm) else .next) } := by
  cases taken <;> rfl

/-! ### The string loop -/

/-- Emitting leaves the strings of memory where they are. -/
@[simp] theorem stringAt_emit (s : State) (out : List Byte) (a : Word) (bs : List Byte) :
    StringAt (s.emit out) a bs ↔ StringAt s a bs := by
  induction bs generalizing a with
  | nil => exact Iff.rfl
  | cons b bs ih => simp only [StringAt, emit_memRead, ih]

@[simp] theorem brokenStringAt_emit (s : State) (out : List Byte) (a : Word) (bs : List Byte) (bad : Word) :
    BrokenStringAt (s.emit out) a bs bad ↔ BrokenStringAt s a bs bad := by
  induction bs generalizing a with
  | nil => exact Iff.rfl
  | cons b bs ih => simp only [BrokenStringAt, emit_memRead, ih]

/-- A terminated string is emitted and the loop completes (R156). -/
theorem printLoop_string {bs : List Byte} {fuel : Nat} {a : Word} {s : State} (h : StringAt s a bs)
    (hf : bs.length < fuel) : printLoop fuel a s = .next (s.emit bs).complete := by
  induction bs generalizing fuel a s with
  | nil =>
    obtain ⟨fuel, rfl⟩ : ∃ n, fuel = n + 1 := ⟨fuel - 1, by simp at hf; omega⟩
    rw [StringAt] at h
    rw [printLoop, h]
    simp [State.emit, State.complete]
  | cons b bs ih =>
    obtain ⟨fuel, rfl⟩ : ∃ n, fuel = n + 1 := ⟨fuel - 1, by simp at hf; omega⟩
    obtain ⟨h1, h2, h3⟩ := h
    rw [printLoop, h1]
    simp only [h2, if_false, wrap32_u32_succ]
    rw [ih ((stringAt_emit ..).2 h3) (by simp at hf; omega)]
    simp [State.emit, State.complete]

/-- A string that runs into an invalid byte is emitted up to it, and the loop fails there (R156). -/
theorem printLoop_broken {bs : List Byte} {fuel : Nat} {a bad : Word} {s : State} (h : BrokenStringAt s a bs bad)
    (hf : bs.length < fuel) : printLoop fuel a s = .next ((s.emit bs).raise .addressError bad) := by
  induction bs generalizing fuel a s with
  | nil =>
    obtain ⟨fuel, rfl⟩ : ∃ n, fuel = n + 1 := ⟨fuel - 1, by simp at hf; omega⟩
    obtain ⟨rfl, h⟩ := h
    rw [printLoop, h]
    simp [State.emit, State.raise]
  | cons b bs ih =>
    obtain ⟨fuel, rfl⟩ : ∃ n, fuel = n + 1 := ⟨fuel - 1, by simp at hf; omega⟩
    obtain ⟨h1, h2, h3⟩ := h
    rw [printLoop, h1]
    simp only [h2, if_false, wrap32_u32_succ]
    rw [ih ((brokenStringAt_emit ..).2 h3) (by simp at hf; omega)]
    simp [State.emit, State.raise]

/-- Everything the string loop can do: it emits the string that stands at the address and completes, or emits the bytes
before the first invalid one and fails there, or runs out of addresses having read a non-zero byte at each. -/
theorem printLoop_cases (fuel : Nat) (a : Word) (s : State) :
    (∃ bs, StringAt s a bs ∧ printLoop fuel a s = .next (s.emit bs).complete) ∨
    (∃ bs bad, BrokenStringAt s a bs bad ∧ printLoop fuel a s = .next ((s.emit bs).raise .addressError bad)) ∨
    (printLoop fuel a s = .fault .stringNeverEnds ∧
      ∀ k, k < fuel → ∃ b, b ≠ 0#8 ∧ s.memRead (a + BitVec.ofNat 32 k) = some b) := by
  induction fuel generalizing a s with
  | zero => exact .inr (.inr ⟨rfl, fun k hk => absurd hk (Nat.not_lt_zero _)⟩)
  | succ fuel ih =>
    rw [printLoop]
    cases hr : s.memRead a with
    | none => exact .inr (.inl ⟨[], a, ⟨rfl, hr⟩, by simp [State.emit]⟩)
    | some b =>
      by_cases hb : b = 0#8
      · exact .inl ⟨[], by rw [StringAt, hr, hb], by simp [hb, State.emit]⟩
      · simp only [hb, if_false, wrap32_u32_succ]
        rcases ih (a + 1#32) (s.emit [b]) with ⟨bs, hs, h⟩ | ⟨bs, bad, hs, h⟩ | ⟨h, hk⟩
        · exact .inl ⟨b :: bs, ⟨hr, hb, (stringAt_emit ..).1 hs⟩, by rw [h]; simp [State.emit]⟩
        · exact .inr (.inl ⟨b :: bs, bad, ⟨hr, hb, (brokenStringAt_emit ..).1 hs⟩, by rw [h]; simp [State.emit]⟩)
        · refine .inr (.inr ⟨h, fun k hlt => ?_⟩)
          cases k with
          | zero => exact ⟨b, hb, by simpa using hr⟩
          | succ k =>
            obtain ⟨b', hb', hr'⟩ := hk k (by omega)
            refine ⟨b', hb', ?_⟩
            rw [emit_memRead] at hr'
            rw [← hr', BitVec.add_assoc, show (1#32 : Word) + BitVec.ofNat 32 k = BitVec.ofNat 32 (k + 1) by
              rw [Nat.add_comm, BitVec.ofNat_add]]

/-- With a valid non-zero byte at every address the string loop never completes (U8). -/
theorem printLoop_endless {s : State} (h : ∀ a : Word, ∃ b, b ≠ 0#8 ∧ s.memRead a = some b) (fuel : Nat) (a : Word) :
    printLoop fuel a s = .fault .stringNeverEnds := by
  induction fuel generalizing a s with
  | zero => rfl
  | succ fuel ih =>
    obtain ⟨b, hb, hr⟩ := h a
    rw [printLoop, hr]
    simp only [hb, if_false]
    exact ih (s := s.emit [b]) h _

/-- Everything `PrintString` can do (R156, U8). -/
theorem printString_cases (a : Word) (s : State) :
    (∃ bs, StringAt s a bs ∧ printString a s = .next (s.emit bs).complete) ∨
    (∃ bs bad, BrokenStringAt s a bs bad ∧ printString a s = .next ((s.emit bs).raise .addressError bad)) ∨
    (printString a s = .fault .stringNeverEnds ∧ ∀ a : Word, ∃ b, b ≠ 0#8 ∧ s.memRead a = some b) := by
  rcases printLoop_cases addressCount a s with h | h | ⟨h, hk⟩
  · exact .inl h
  · exact .inr (.inl h)
  · refine .inr (.inr ⟨h, fun b => ?_⟩)
    have := hk (b - a).toNat (by have := (b - a).isLt; unfold addressCount; exact this)
    rwa [BitVec.ofNat_toNat, BitVec.setWidth_eq, BitVec.add_comm, BitVec.sub_add_cancel] at this

/-- A broken string is broken at an address that cannot be read. -/
theorem memRead_of_broken {s : State} {a bad : Word} {bs : List Byte} (h : BrokenStringAt s a bs bad) :
    s.memRead bad = none := by
  induction bs generalizing a with
  | nil => exact h.1 ▸ h.2
  | cons b bs ih => exact ih h.2.2

/-! ### Drawing -/

/-- Finishing a drawing instruction performs its word writes in order up to the first that fails (R175). -/
theorem finishDraw_result (s : State) (ws : List (Word × Word)) :
    ∃ t, finishDraw (performWrites s.plat ws s.mem) s = .next t ∧ PaintResult s t ws := by
  obtain ⟨done, rest, hws, hd, hm, hr⟩ := performWrites_cases s.plat ws s.mem
  unfold finishDraw
  rcases hr with ⟨hrest, hf⟩ | ⟨w, tail, hrest, hv, hf⟩
  · rw [hf]
    exact ⟨_, rfl, fun _ => rfl, rfl, ⟨rfl, rfl, rfl⟩, done, rest, hws, hd, hm, .inl ⟨hrest, rfl⟩⟩
  · rw [hf]
    exact ⟨_, rfl, fun _ => rfl, rfl, ⟨rfl, rfl, rfl⟩, done, rest, hws, hd, hm, .inr ⟨w, tail, hrest, hv, rfl⟩⟩

/-- Everything a drawing instruction can do: it completes or fails over the word writes it asks for (R175). -/
theorem exec_paints {i : Instr} (h : i.draws = true) (s : State) :
    ∃ t, exec i s = .next t ∧ PaintResult s t (wordWritesOf i s) := by
  obtain ⟨t, ht, hp⟩ := finishDraw_result s (wordWritesOf i s)
  refine ⟨t, ?_, hp⟩
  cases i with
  | pixel rs rt rd => simpa only [exec, execPixel, pixelWrite_eq, wordWritesOf] using ht
  | fillall rs => simpa only [exec, execFillall, fillAll_eq, wordWritesOf] using ht
  | fillrow rs rt => simpa only [exec, execFillrow, fillRow_eq, wordWritesOf] using ht
  | fillcol rs rt => simpa only [exec, execFillcol, fillCol_eq, wordWritesOf] using ht
  | sprite rs => simpa only [exec, execSprite, drawSprite_eq, wordWritesOf] using ht
  | _ => cases h

/-- When every word write is to a valid word the drawing completes with all of them performed. -/
theorem finishDraw_complete {s : State} {ws : List (Word × Word)} (h : ∀ w ∈ ws, validWord s.plat (u32 w.1) = true) :
    finishDraw (performWrites s.plat ws s.mem) s = .next { s with mem := s.mem.writeWords ws }.complete := by
  rw [performWrites_of_valid h]
  rfl

end Sys2Proof.Machine
end

