-- ==== Sys2Proof/Laws/PerInstr.lean ====
section
/-! SUPPORT. One lemma per constructor of Instr: its word is accepted by its own catalog entry, whose resolver gives the
instruction back (R80, R90, R96). -/

namespace Sys2Proof.Laws.OwnEntry

open Sys2Proof

/-- The entry at the instruction's index accepts the instruction's word and resolves it to the instruction. -/
def Statement (i : Instr) : Prop :=
  ∃ e, catalog[i.index]? = some e ∧ e.accepts (encode i) = true ∧ e.occurrence (encode i) = i

/-- An entry that accepts: its mask keeps its literals and clears the fields. -/
theorem accepts_of {e : Entry} {m mask : Word} {rs rt rd : Reg} {imm : Half} (hmask : e.mask = mask)
    (hmatch : e.matchBits = m) (hm : m &&& mask = m) (hs : placeReg rs 21 &&& mask = 0#32)
    (ht : placeReg rt 16 &&& mask = 0#32) (hd : placeReg rd 11 &&& mask = 0#32)
    (hi : imm.zeroExtend 32 &&& mask = 0#32) : e.accepts (assembleWord m rs rt rd imm) = true := by
  rw [Entry.accepts, hmask, hmatch, assembleWord_and_mask hm hs ht hd hi, beq_self_eq_true]

theorem addi (rt rs : Reg) (imm : Half) : Statement (.addi rt rs imm) :=
  ⟨_, rfl, accepts_of (mask := 0xFC000000#32) (by decide) (by decide) (by decide)
    (and_mask_eq_zero (placeReg_21_bits rs) (by decide)) (and_mask_eq_zero (placeReg_16_bits rt) (by decide)) (by simp) (and_mask_eq_zero (imm_bits imm) (by decide)), by
      simp (disch := decide) only [encode, entry, fieldRt_assembleWord, fieldRs_assembleWord, fieldImm_assembleWord]⟩

theorem subi (rt rs : Reg) (imm : Half) : Statement (.subi rt rs imm) :=
  ⟨_, rfl, accepts_of (mask := 0xFC000000#32) (by decide) (by decide) (by decide)
    (and_mask_eq_zero (placeReg_21_bits rs) (by decide)) (and_mask_eq_zero (placeReg_16_bits rt) (by decide)) (by simp) (and_mask_eq_zero (imm_bits imm) (by decide)), by
      simp (disch := decide) only [encode, entry, fieldRt_assembleWord, fieldRs_assembleWord, fieldImm_assembleWord]⟩

theorem maxmag (rd rs rt : Reg) : Statement (.maxmag rd rs rt) :=
  ⟨_, rfl, accepts_of (mask := 0xFC0007FF#32) (by decide) (by decide) (by decide)
    (and_mask_eq_zero (placeReg_21_bits rs) (by decide)) (and_mask_eq_zero (placeReg_16_bits rt) (by decide)) (and_mask_eq_zero (placeReg_11_bits rd) (by decide)) (by simp), by
      simp (disch := decide) only [encode, entry, fieldRd_assembleWord, fieldRs_assembleWord, fieldRt_assembleWord]⟩

theorem avg (rd rs rt : Reg) : Statement (.avg rd rs rt) :=
  ⟨_, rfl, accepts_of (mask := 0xFC0007FF#32) (by decide) (by decide) (by decide)
    (and_mask_eq_zero (placeReg_21_bits rs) (by decide)) (and_mask_eq_zero (placeReg_16_bits rt) (by decide)) (and_mask_eq_zero (placeReg_11_bits rd) (by decide)) (by simp), by
      simp (disch := decide) only [encode, entry, fieldRd_assembleWord, fieldRs_assembleWord, fieldRt_assembleWord]⟩

theorem xor (rd rs rt : Reg) : Statement (.xor rd rs rt) :=
  ⟨_, rfl, accepts_of (mask := 0xFC0007FF#32) (by decide) (by decide) (by decide)
    (and_mask_eq_zero (placeReg_21_bits rs) (by decide)) (and_mask_eq_zero (placeReg_16_bits rt) (by decide)) (and_mask_eq_zero (placeReg_11_bits rd) (by decide)) (by simp), by
      simp (disch := decide) only [encode, entry, fieldRd_assembleWord, fieldRs_assembleWord, fieldRt_assembleWord]⟩

theorem cmp3 (rd rs rt : Reg) : Statement (.cmp3 rd rs rt) :=
  ⟨_, rfl, accepts_of (mask := 0xFC0007FF#32) (by decide) (by decide) (by decide)
    (and_mask_eq_zero (placeReg_21_bits rs) (by decide)) (and_mask_eq_zero (placeReg_16_bits rt) (by decide)) (and_mask_eq_zero (placeReg_11_bits rd) (by decide)) (by simp), by
      simp (disch := decide) only [encode, entry, fieldRd_assembleWord, fieldRs_assembleWord, fieldRt_assembleWord]⟩

theorem clamp (rd rs : Reg) : Statement (.clamp rd rs) :=
  ⟨_, rfl, accepts_of (mask := 0xFC1F07FF#32) (by decide) (by decide) (by decide)
    (and_mask_eq_zero (placeReg_21_bits rs) (by decide)) (by simp) (and_mask_eq_zero (placeReg_11_bits rd) (by decide)) (by simp), by
      simp (disch := decide) only [encode, entry, fieldRd_assembleWord, fieldRs_assembleWord]⟩

theorem modnorm (rd rs : Reg) : Statement (.modnorm rd rs) :=
  ⟨_, rfl, accepts_of (mask := 0xFC1F07FF#32) (by decide) (by decide) (by decide)
    (and_mask_eq_zero (placeReg_21_bits rs) (by decide)) (by simp) (and_mask_eq_zero (placeReg_11_bits rd) (by decide)) (by simp), by
      simp (disch := decide) only [encode, entry, fieldRd_assembleWord, fieldRs_assembleWord]⟩

theorem sgnc (rd rs : Reg) : Statement (.sgnc rd rs) :=
  ⟨_, rfl, accepts_of (mask := 0xFC1F07FF#32) (by decide) (by decide) (by decide)
    (and_mask_eq_zero (placeReg_21_bits rs) (by decide)) (by simp) (and_mask_eq_zero (placeReg_11_bits rd) (by decide)) (by simp), by
      simp (disch := decide) only [encode, entry, fieldRd_assembleWord, fieldRs_assembleWord]⟩

theorem bidx (rd rs rt : Reg) : Statement (.bidx rd rs rt) :=
  ⟨_, rfl, accepts_of (mask := 0xFC0007FF#32) (by decide) (by decide) (by decide)
    (and_mask_eq_zero (placeReg_21_bits rs) (by decide)) (and_mask_eq_zero (placeReg_16_bits rt) (by decide)) (and_mask_eq_zero (placeReg_11_bits rd) (by decide)) (by simp), by
      simp (disch := decide) only [encode, entry, fieldRd_assembleWord, fieldRs_assembleWord, fieldRt_assembleWord]⟩

theorem sumbank (rd : Reg) : Statement (.sumbank rd) :=
  ⟨_, rfl, accepts_of (mask := 0xFFFF07FF#32) (by decide) (by decide) (by decide)
    (by simp) (by simp) (and_mask_eq_zero (placeReg_11_bits rd) (by decide)) (by simp), by
      simp (disch := decide) only [encode, entry, fieldRd_assembleWord]⟩

theorem drain (rd : Reg) : Statement (.drain rd) :=
  ⟨_, rfl, accepts_of (mask := 0xFFFF07FF#32) (by decide) (by decide) (by decide)
    (by simp) (by simp) (and_mask_eq_zero (placeReg_11_bits rd) (by decide)) (by simp), by
      simp (disch := decide) only [encode, entry, fieldRd_assembleWord]⟩

theorem lui (rt rs : Reg) (imm : Half) : Statement (.lui rt rs imm) :=
  ⟨_, rfl, accepts_of (mask := 0xFC000000#32) (by decide) (by decide) (by decide)
    (and_mask_eq_zero (placeReg_21_bits rs) (by decide)) (and_mask_eq_zero (placeReg_16_bits rt) (by decide)) (by simp) (and_mask_eq_zero (imm_bits imm) (by decide)), by
      simp (disch := decide) only [encode, entry, fieldRt_assembleWord, fieldRs_assembleWord, fieldImm_assembleWord]⟩

theorem ori (rt rs : Reg) (imm : Half) : Statement (.ori rt rs imm) :=
  ⟨_, rfl, accepts_of (mask := 0xFC000000#32) (by decide) (by decide) (by decide)
    (and_mask_eq_zero (placeReg_21_bits rs) (by decide)) (and_mask_eq_zero (placeReg_16_bits rt) (by decide)) (by simp) (and_mask_eq_zero (imm_bits imm) (by decide)), by
      simp (disch := decide) only [encode, entry, fieldRt_assembleWord, fieldRs_assembleWord, fieldImm_assembleWord]⟩

theorem bpos (rs : Reg) (imm : Half) : Statement (.bpos rs imm) :=
  ⟨_, rfl, accepts_of (mask := 0xFC1F0000#32) (by decide) (by decide) (by decide)
    (and_mask_eq_zero (placeReg_21_bits rs) (by decide)) (by simp) (by simp) (and_mask_eq_zero (imm_bits imm) (by decide)), by
      simp (disch := decide) only [encode, entry, fieldRs_assembleWord, fieldImm_assembleWord]⟩

theorem bneg (rs : Reg) (imm : Half) : Statement (.bneg rs imm) :=
  ⟨_, rfl, accepts_of (mask := 0xFC1F0000#32) (by decide) (by decide) (by decide)
    (and_mask_eq_zero (placeReg_21_bits rs) (by decide)) (by simp) (by simp) (and_mask_eq_zero (imm_bits imm) (by decide)), by
      simp (disch := decide) only [encode, entry, fieldRs_assembleWord, fieldImm_assembleWord]⟩

theorem beq (rs rt : Reg) (imm : Half) : Statement (.beq rs rt imm) :=
  ⟨_, rfl, accepts_of (mask := 0xFC000000#32) (by decide) (by decide) (by decide)
    (and_mask_eq_zero (placeReg_21_bits rs) (by decide)) (and_mask_eq_zero (placeReg_16_bits rt) (by decide)) (by simp) (and_mask_eq_zero (imm_bits imm) (by decide)), by
      simp (disch := decide) only [encode, entry, fieldRs_assembleWord, fieldRt_assembleWord, fieldImm_assembleWord]⟩

theorem jmp (ref : Half) : Statement (.jmp ref) :=
  ⟨_, rfl, accepts_of (mask := 0xFFFF0000#32) (by decide) (by decide) (by decide)
    (by simp) (by simp) (by simp) (and_mask_eq_zero (imm_bits ref) (by decide)), by
      simp (disch := decide) only [encode, entry, fieldImm_assembleWord]⟩

theorem pstr (ref : Half) : Statement (.pstr ref) :=
  ⟨_, rfl, accepts_of (mask := 0xFFFF0000#32) (by decide) (by decide) (by decide)
    (by simp) (by simp) (by simp) (and_mask_eq_zero (imm_bits ref) (by decide)), by
      simp (disch := decide) only [encode, entry, fieldImm_assembleWord]⟩

theorem syscall : Statement .syscall :=
  ⟨_, rfl, accepts_of (mask := 0xFFFFFFFF#32) (by decide) (by decide) (by decide)
    (by simp) (by simp) (by simp) (by simp), rfl⟩

theorem pixel (rs rt rd : Reg) : Statement (.pixel rs rt rd) :=
  ⟨_, rfl, accepts_of (mask := 0xFC0007FF#32) (by decide) (by decide) (by decide)
    (and_mask_eq_zero (placeReg_21_bits rs) (by decide)) (and_mask_eq_zero (placeReg_16_bits rt) (by decide)) (and_mask_eq_zero (placeReg_11_bits rd) (by decide)) (by simp), by
      simp (disch := decide) only [encode, entry, fieldRs_assembleWord, fieldRt_assembleWord, fieldRd_assembleWord]⟩

theorem fillall (rs : Reg) : Statement (.fillall rs) :=
  ⟨_, rfl, accepts_of (mask := 0xFC1FFFFF#32) (by decide) (by decide) (by decide)
    (and_mask_eq_zero (placeReg_21_bits rs) (by decide)) (by simp) (by simp) (by simp), by
      simp (disch := decide) only [encode, entry, fieldRs_assembleWord]⟩

theorem fillrow (rs rt : Reg) : Statement (.fillrow rs rt) :=
  ⟨_, rfl, accepts_of (mask := 0xFC00FFFF#32) (by decide) (by decide) (by decide)
    (and_mask_eq_zero (placeReg_21_bits rs) (by decide)) (and_mask_eq_zero (placeReg_16_bits rt) (by decide)) (by simp) (by simp), by
      simp (disch := decide) only [encode, entry, fieldRs_assembleWord, fieldRt_assembleWord]⟩

theorem fillcol (rs rt : Reg) : Statement (.fillcol rs rt) :=
  ⟨_, rfl, accepts_of (mask := 0xFC00FFFF#32) (by decide) (by decide) (by decide)
    (and_mask_eq_zero (placeReg_21_bits rs) (by decide)) (and_mask_eq_zero (placeReg_16_bits rt) (by decide)) (by simp) (by simp), by
      simp (disch := decide) only [encode, entry, fieldRs_assembleWord, fieldRt_assembleWord]⟩

theorem sprite (rs : Reg) : Statement (.sprite rs) :=
  ⟨_, rfl, accepts_of (mask := 0xFC1FFFFF#32) (by decide) (by decide) (by decide)
    (and_mask_eq_zero (placeReg_21_bits rs) (by decide)) (by simp) (by simp) (by simp), by
      simp (disch := decide) only [encode, entry, fieldRs_assembleWord]⟩

end Sys2Proof.Laws.OwnEntry
end

