-- ==== Sys2Proof/Laws/Step.lean ====
section
/-! SUPPORT. What one step can do, once (R234), and that a word placed for the fetch is the word fetched. -/

namespace Sys2Proof.Machine

open Sys2Proof

/-- Everything a step that answers a next state has done: a failed fetch, an unmatched word, or an instruction's
transaction with its outcome applied. -/
theorem step_next_cases {s t : State} (h : step s = .next t) :
    s.status = .running ∧ s.plat.cfg.wellFormed = true ∧
      ((s.fetch = none ∧ t = s.stopFailed .fetchError s.pc) ∨
        ∃ iw, s.fetch = some iw ∧
          ((∃ w, decode iw = .error (.noMatch w) ∧ t = (s.raise .noMatch w).applyOutcome) ∨
            ∃ i u, decode iw = .ok i ∧ exec i s = .next u ∧ t = u.applyOutcome)) := by
  unfold step at h
  cases hs : s.status with
  | terminated => rw [hs] at h; cases h
  | failed k info => rw [hs] at h; cases h
  | running =>
    rw [hs] at h
    dsimp only at h
    by_cases hc : s.plat.cfg.wellFormed = true
    · rw [if_pos hc] at h
      refine ⟨rfl, hc, ?_⟩
      cases hf : s.fetch with
      | none =>
        rw [hf] at h
        cases h
        exact .inl ⟨rfl, rfl⟩
      | some iw =>
        rw [hf] at h
        refine .inr ⟨iw, rfl, ?_⟩
        unfold dispatch at h
        dsimp only at h
        rcases hd : decode iw with e | i
        · obtain ⟨w⟩ := e
          rw [hd] at h
          cases h
          exact .inl ⟨w, rfl, rfl⟩
        · rw [hd] at h
          dsimp only at h
          cases hx : exec i s with
          | next u => rw [hx] at h; cases h; exact .inr ⟨i, u, rfl, hx, rfl⟩
          | fault f => rw [hx] at h; cases h
          | refused r => rw [hx] at h; cases h
    · rw [if_neg hc] at h; cases h

@[simp] theorem lookupKey_placeWord (a iw : Word) (imem : List (Word × Word)) :
    lookupKey a (placeWord a iw imem) = some iw := by
  simp [placeWord, lookupKey]

theorem alignDown_aligned (a : Word) : u32 (alignDown a) % 4 = 0 := by
  have hlt : u32 a < 4294967296 := a.isLt
  have : u32 (alignDown a) = u32 a / 4 * 4 := by
    unfold alignDown wrap32
    rw [show ((u32 a : Int) / 4 * 4) = ((u32 a / 4 * 4 : Nat) : Int) by omega, BitVec.ofInt_natCast]
    unfold u32 at *
    rw [BitVec.toNat_ofNat]
    omega
  omega

/-- The word placed by `withFetchWord` is the next one fetched, from a running machine at an aligned pc. -/
theorem fetch_withFetchWord (s : State) (nbits w : Nat) :
    (s.withFetchWord nbits w).fetch = some (tableWord nbits w) ∧ (s.withFetchWord nbits w).status = .running := by
  refine ⟨?_, rfl⟩
  unfold State.fetch State.withFetchWord State.loadAtPc
  dsimp only
  rw [if_pos (alignDown_aligned s.pc), lookupKey_placeWord]

/-- A pc that is already aligned stays. -/
theorem pc_withFetchWord {s : State} (h : s.PcAligned) (nbits w : Nat) : (s.withFetchWord nbits w).pc = s.pc := by
  have hlt : u32 s.pc < 4294967296 := s.pc.isLt
  unfold State.PcAligned at h
  unfold State.withFetchWord State.loadAtPc alignDown wrap32
  dsimp only
  rw [show ((u32 s.pc : Int) / 4 * 4) = ((u32 s.pc : Nat) : Int) by omega, BitVec.ofInt_natCast]
  simp [u32]

end Sys2Proof.Machine
end

