-- ==== Sys2Proof/Laws/Run.lean ====
section
/-! SUPPORT. The equations of a bounded run, and that a run that ends is a bounded run with enough steps. -/

namespace Sys2Proof.Machine

open Sys2Proof

/-- A machine that is not Running has ended, whatever the bound. -/
theorem runFor_stopped {s : State} (h : s.status ≠ .running) (fuel : Nat) : s.runFor fuel = ⟨s, 0, .ended⟩ := by
  cases fuel <;> simp [State.runFor, h]

/-- A step taken is a step of the run. -/
theorem runFor_next {s t : State} (h : step s = .next t) (fuel : Nat) :
    s.runFor (fuel + 1) = ⟨(t.runFor fuel).state, t.completedStep + (t.runFor fuel).completed, (t.runFor fuel).ending⟩ := by
  rw [State.runFor, if_pos (step_next_cases h).1, h]

/-- A run that ends is what a bounded run of more than its completed steps comes to. -/
theorem runFor_of_runsTo {s e : State} {n : Nat} (h : RunsTo s n e) {fuel : Nat} (hf : n < fuel) :
    s.runFor fuel = ⟨e, n, .ended⟩ := by
  induction h generalizing fuel with
  | final h stopped =>
    obtain ⟨fuel, rfl⟩ : ∃ k, fuel = k + 1 := ⟨fuel - 1, by omega⟩
    rw [runFor_next h, runFor_stopped stopped]
    simp [State.completedStep, stopped]
  | completed h running rest ih =>
    obtain ⟨fuel, rfl⟩ : ∃ k, fuel = k + 1 := ⟨fuel - 1, by omega⟩
    rw [runFor_next h, ih (by omega)]
    simp [State.completedStep, running, Nat.add_comm]

/-- A bounded run of a running machine that ends is a run that ends. -/
theorem runsTo_of_runFor {fuel n : Nat} {s e : State} (hs : s.status = .running)
    (h : s.runFor fuel = ⟨e, n, .ended⟩) : RunsTo s n e := by
  induction fuel generalizing s n with
  | zero => simp [State.runFor, hs] at h
  | succ fuel ih =>
    cases hx : step s with
    | fault f => simp [State.runFor, hs, hx] at h
    | refused r => simp [State.runFor, hs, hx] at h
    | next t =>
      rw [runFor_next hx] at h
      by_cases ht : t.status = .running
      · obtain ⟨m, rfl⟩ : ∃ m, n = m + 1 := ⟨n - 1, by injection h; simp [State.completedStep, ht] at *; omega⟩
        refine .completed hx ht (ih ht ?_)
        injection h with h1 h2 h3
        simp only [State.completedStep, ht, if_true] at h2
        rcases hr : t.runFor fuel with ⟨a, b, c⟩
        simp only [hr] at h1 h2 h3
        rw [h1, h3, show b = m by omega]
      · rw [runFor_stopped ht] at h
        injection h with h1 h2
        simp only [State.completedStep, ht, if_false] at h2
        subst h1 h2
        exact .final hx ht

end Sys2Proof.Machine
end

