-- ==== Sys2Proof/Tests/Slice0.lean ====
section
/-! SUPPORT. The model's own tests: what WellFormed and the construction check refuse, a written-out word for every
constructor, one-step tests with the values of spec/95_test_vectors.md, and a witness for the hypotheses of every
statement that has some. -/

set_option Elab.async false

namespace Sys2Proof.Tests

open Sys2Proof Sys2Proof.Machine

/-! ### Helpers -/

/-- The state after reset with some registers set. -/
def regsSet (rs : List (Reg × Word)) : State := rs.foldl (fun s r => s.writeReg r.1 r.2) State.reset

/-- Bank registers from `x[8]` on. -/
def bankSet (vs : List Word) : State :=
  regsSet (vs.zipIdx.map fun vk => (Fin.ofNat 32 (8 + vk.2), vk.1))

/-- The next state of an outcome. -/
def nextOf : Host.Outcome State Fault Refusal → Option State
  | .next t => some t
  | .fault _ => none
  | .refused _ => none

/-- The state one step after a word is placed at the pc. -/
def after (s : State) (w : Nat) : Option State := nextOf (step (s.withFetchWord 32 w))

/-- A register one step after a word is placed at the pc. -/
def regAfter (s : State) (w : Nat) (r : Reg) : Option Word := (after s w).map (·.readReg r)

/-- Some bytes of memory one step after a word is placed at the pc. -/
def bytesAfter (s : State) (w : Nat) (addrs : List Nat) : Option (List Byte) :=
  (after s w).map fun t => addrs.map t.mem.read

/-- The output and the status one step after a word is placed at the pc. -/
def outAfter (s : State) (w : Nat) : Option (List Byte × Status) := (after s w).map fun t => (t.out, t.status)

/-- The pc and the status one step after a word is placed at the pc. -/
def pcAfter (s : State) (w : Nat) : Option (Word × Status) := (after s w).map fun t => (t.pc, t.status)

theorem eq_next_of {o : Host.Outcome State Fault Refusal} {p : State → Bool} (h : (nextOf o).any p = true) :
    ∃ t, o = .next t ∧ p t = true := by
  cases o with
  | next t => exact ⟨t, rfl, h⟩
  | fault f => cases h
  | refused r => cases h

/-- `SymTab` and memory of section 2.3 of spec/95_test_vectors.md. -/
def symbolPlatform : Platform :=
  { resetPlatform with symTab := [(1#16, 0x10010000#32), (2#16, 0x10010003#32), (3#16, 0x00400020#32)] }

/-- "Hi!" at `0x10010000`. -/
def hiMemory : Memory := [(0x10010000, 0x48#8), (0x10010001, 0x69#8), (0x10010002, 0x21#8)]

/-- The string state of section 2.3. -/
def stringState (rs : List (Reg × Word)) : State := { regsSet rs with mem := hiMemory, plat := symbolPlatform }

/-- The same with `0x10010002` invalid. -/
def brokenState (rs : List (Reg × Word)) : State :=
  { stringState rs with
    mem := hiMemory.take 2
    plat := { symbolPlatform with valid := [⟨0, 0x10010002⟩, ⟨0x10010003, addressCount⟩] } }

/-- A state on another configuration. -/
def withCfg (s : State) (c : Config) : State := { s with plat := { s.plat with cfg := c } }

/-- A state in which only the listed ranges of addresses are valid. -/
def withValid (s : State) (v : List Region) : State := { s with plat := { s.plat with valid := v } }

/-! ### WellFormed and the construction check refuse ill-formed terms -/

theorem test_wf_default_configuration : ({} : Config).wellFormed = true := by decide
theorem test_wf_highest_framebuffer : ({ fbBase := 0xFFF00000#32, bankBase := 24 } : Config).wellFormed = true := by decide
theorem test_illformed_misaligned_framebuffer : ({ fbBase := 0x10040002#32 } : Config).wellFormed = false := by decide
theorem test_illformed_framebuffer_too_high : ({ fbBase := 0xFFF00004#32 } : Config).wellFormed = false := by decide
theorem test_illformed_bank_too_high : ({ bankBase := 25 } : Config).wellFormed = false := by decide
theorem test_wf_known_label : (Instr.jmp 3#16).wellFormed symbolPlatform.symTab = true := by decide
theorem test_illformed_jmp_unknown_label : (Instr.jmp 4#16).wellFormed symbolPlatform.symTab = false := by decide
theorem test_illformed_pstr_unknown_label : (Instr.pstr 9#16).wellFormed symbolPlatform.symTab = false := by decide
theorem test_illformed_lui_with_rs : (Instr.lui 8 31 0x8000#16).wellFormed [] = false := by decide

/-- An entry for the check's tests. -/
def addiEntry : Entry := entry "ADDI" .I (formatI 0x08 patS patT) fun w => .addi (fieldRt w) (fieldRs w) (fieldImm w)
/-- An entry that does not clash with `addiEntry`. -/
def subiEntry : Entry := entry "SUBI" .I (formatI 0x09 patS patT) fun w => .subi (fieldRt w) (fieldRs w) (fieldImm w)

theorem test_check_passes : checkCatalog [addiEntry, subiEntry] = none := by decide +kernel
theorem test_check_same_pattern :
    checkCatalog [subiEntry, addiEntry, { addiEntry with mnemonic := "ADDX" }] = some ⟨1, 2⟩ := by decide +kernel
theorem test_check_same_mnemonic :
    checkCatalog [addiEntry, { subiEntry with mnemonic := "ADDI" }] = some ⟨0, 1⟩ := by decide +kernel
theorem test_check_short_pattern :
    checkCatalog [{ addiEntry with pattern := addiEntry.pattern.drop 1 }] = some ⟨0, 0⟩ := by decide +kernel
theorem test_check_match_outside_mask :
    checkCatalog [{ addiEntry with matchBits := 0x20000001#32 }] = some ⟨0, 0⟩ := by decide +kernel
theorem test_check_letter_out_of_range :
    checkCatalog [entry "ADDI" .I (formatI 0x08 patT patS) fun _ => .syscall] = some ⟨0, 0⟩ := by decide +kernel
theorem test_check_partial_field :
    checkCatalog [entry "ADDI" .I (formatI 0x08 (patS.take 4 ++ litBits 1 0) patT) fun _ => .syscall] = some ⟨0, 0⟩ := by
  decide +kernel

/-! ### Decoding: one word written out for every constructor (30_encoding.md R80; 95_test_vectors.md) -/

theorem test_decode_addi : decodeTableWord 32 0x2109FFFF = some (.addi 9 8 0xFFFF#16) := by decide +kernel
theorem test_decode_subi : decodeTableWord 32 0x25090001 = some (.subi 9 8 1#16) := by decide +kernel
theorem test_decode_maxmag : decodeTableWord 32 0x01095001 = some (.maxmag 10 8 9) := by decide +kernel
theorem test_decode_avg : decodeTableWord 32 0x01282002 = some (.avg 4 9 8) := by decide +kernel
theorem test_decode_xor : decodeTableWord 32 0x01095003 = some (.xor 10 8 9) := by decide +kernel
theorem test_decode_cmp3 : decodeTableWord 32 0x0234B004 = some (.cmp3 22 17 20) := by decide +kernel
theorem test_decode_clamp : decodeTableWord 32 0x02A0A805 = some (.clamp 21 21) := by decide +kernel
theorem test_decode_modnorm : decodeTableWord 32 0x01005006 = some (.modnorm 10 8) := by decide +kernel
theorem test_decode_sgnc : decodeTableWord 32 0x01005007 = some (.sgnc 10 8) := by decide +kernel
theorem test_decode_bidx : decodeTableWord 32 0x0253A008 = some (.bidx 20 18 19) := by decide +kernel
theorem test_decode_sumbank : decodeTableWord 32 0x00008809 = some (.sumbank 17) := by decide +kernel
theorem test_decode_drain : decodeTableWord 32 0x0000800A = some (.drain 16) := by decide +kernel
theorem test_decode_lui : decodeTableWord 32 0x3FE88000 = some (.lui 8 31 0x8000#16) := by decide +kernel
theorem test_decode_ori : decodeTableWord 32 0x35098000 = some (.ori 9 8 0x8000#16) := by decide +kernel
theorem test_decode_bpos : decodeTableWord 32 0x1500FFFD = some (.bpos 8 0xFFFD#16) := by decide +kernel
theorem test_decode_bneg : decodeTableWord 32 0x1AC00003 = some (.bneg 22 3#16) := by decide +kernel
theorem test_decode_beq : decodeTableWord 32 0x12960001 = some (.beq 20 22 1#16) := by decide +kernel
theorem test_decode_jmp : decodeTableWord 32 0x08000003 = some (.jmp 3#16) := by decide +kernel
theorem test_decode_pstr : decodeTableWord 32 0x0C000001 = some (.pstr 1#16) := by decide +kernel
theorem test_decode_syscall : decodeTableWord 32 0x0000000C = some .syscall := by decide +kernel
theorem test_decode_pixel : decodeTableWord 32 0x71095000 = some (.pixel 8 9 10) := by decide +kernel
theorem test_decode_fillall : decodeTableWord 32 0x71400001 = some (.fillall 10) := by decide +kernel
theorem test_decode_fillrow : decodeTableWord 32 0x712A0002 = some (.fillrow 9 10) := by decide +kernel
theorem test_decode_fillcol : decodeTableWord 32 0x71090003 = some (.fillcol 8 9) := by decide +kernel
theorem test_decode_sprite : decodeTableWord 32 0x71000004 = some (.sprite 8) := by decide +kernel

/-- The rejected words of section 2.5. -/
theorem test_decode_rejects :
    [0x00000000, 0x0000000B, 0x00000041, 0x00210005, 0x0000080C, 0x08010000, 0x14010003, 0x70000005, 0x70000801,
      0xFFFFFFFF].all (fun w => decodeTableWord 32 w == none) = true := by decide +kernel

theorem test_encode_written_words :
    [encode (.addi 9 8 0xFFFF#16), encode (.pixel 8 9 10), encode (.beq 20 22 1#16), encode (.lui 8 0 0x1234#16)]
      = [0x2109FFFF#32, 0x71095000#32, 0x12960001#32, 0x3C081234#32] := by decide +kernel

/-! ### One step of every instruction (95_test_vectors.md sections 2.1 to 2.4) -/

theorem test_addi_wraps : regAfter (regsSet [(8, 0x7FFFFFFF#32)]) 0x21090001 9 = some 0x80000000#32 := by decide +kernel
theorem test_addi_sign_extends : regAfter (regsSet []) 0x21098000 9 = some 0xFFFF8000#32 := by decide +kernel
theorem test_subi_wraps : regAfter (regsSet [(8, 0x80000000#32)]) 0x25090001 9 = some 0x7FFFFFFF#32 := by decide +kernel
theorem test_subi_negative : regAfter (regsSet [(8, 5#32)]) 0x2509FFFF 9 = some 6#32 := by decide +kernel
theorem test_maxmag_tie : regAfter (regsSet [(8, -4#32), (9, 4#32)]) 0x01095001 10 = some (-4#32) := by decide +kernel
theorem test_maxmag_int_min :
    regAfter (regsSet [(8, 0x7FFFFFFF#32), (9, 0x80000000#32)]) 0x01095001 10 = some 0x80000000#32 := by decide +kernel
theorem test_avg_truncates : regAfter (regsSet [(8, -7#32), (9, 2#32)]) 0x01095002 10 = some (-2#32) := by decide +kernel
theorem test_avg_wraps_first :
    regAfter (regsSet [(8, 0x7FFFFFFF#32), (9, 1#32)]) 0x01095002 10 = some 0xC0000000#32 := by decide +kernel
theorem test_xor : regAfter (regsSet [(8, 0xFF00FF00#32), (9, 0x0FF00FF0#32)]) 0x01095003 10 = some 0xF0F0F0F0#32 := by
  decide +kernel
theorem test_cmp3_signed : regAfter (regsSet [(8, -1#32)]) 0x01095004 10 = some 0xFFFFFFFF#32 := by decide +kernel
theorem test_cmp3_greater : regAfter (regsSet [(8, 2#32), (9, 1#32)]) 0x01095004 10 = some 1#32 := by decide +kernel
theorem test_clamp_low : regAfter (regsSet [(8, -250#32)]) 0x01005005 10 = some (-100#32) := by decide +kernel
theorem test_clamp_high : regAfter (regsSet [(8, 101#32)]) 0x01005005 10 = some 100#32 := by decide +kernel
theorem test_modnorm_negative : regAfter (regsSet [(8, -101#32)]) 0x01005006 10 = some (-50#32) := by decide +kernel
theorem test_modnorm_int_min : regAfter (regsSet [(8, 0x80000000#32)]) 0x01005006 10 = some 17#32 := by decide +kernel
theorem test_sgnc_positive : regAfter (regsSet [(8, 0x7FFFFFFF#32)]) 0x01005007 10 = some 1#32 := by decide +kernel
theorem test_sgnc_int_min : regAfter (regsSet [(8, 0x80000000#32)]) 0x01005007 10 = some 0#32 := by decide +kernel
theorem test_bidx_negative : regAfter (regsSet [(8, -5#32), (9, 3#32)]) 0x01095008 10 = some 1#32 := by decide +kernel
theorem test_bidx_int_min :
    regAfter (regsSet [(8, 0x80000000#32), (9, 0x7FFFFFFF#32)]) 0x01095008 10 = some 0x7FFFFFFE#32 := by decide +kernel
theorem test_sumbank : regAfter (bankSet [3#32, 0#32, -2#32, 5#32]) 0x00008009 16 = some 6#32 := by decide +kernel
theorem test_sumbank_into_bank : regAfter (bankSet [0x7FFFFFFF#32, 1#32]) 0x00004009 8 = some 0x80000000#32 := by
  decide +kernel
theorem test_drain_bank :
    (after ((bankSet [3#32, 0#32, -2#32, 5#32]).writeReg 16 10#32) 0x0000800A).map
      (fun t => [t.readReg 8, t.readReg 9, t.readReg 10, t.readReg 11, t.readReg 16])
      = some [2#32, 0#32, -2#32, 4#32, 12#32] := by decide +kernel
theorem test_drain_into_bank : regAfter (bankSet [3#32, 0#32, -2#32, 5#32]) 0x0000580A 11 = some 6#32 := by decide +kernel
theorem test_lui_ignores_rs : regAfter (regsSet [(31, 5#32)]) 0x3FE88000 8 = some 0x80000000#32 := by decide +kernel
theorem test_ori_zero_extends : regAfter (regsSet [(8, 0x12340000#32)]) 0x35098000 9 = some 0x12348000#32 := by
  decide +kernel
theorem test_register_zero_discards : regAfter (regsSet [(8, 5#32)]) 0x2100FFFF 0 = some 0#32 := by decide +kernel

theorem test_bpos_taken : pcAfter (regsSet [(8, 1#32)]) 0x15000003 = some (0x00400010#32, .running) := by decide +kernel
theorem test_bpos_zero : pcAfter (regsSet []) 0x15000003 = some (0x00400004#32, .running) := by decide +kernel
theorem test_bneg_taken : pcAfter (regsSet [(8, 0x80000000#32)]) 0x1900FFFE = some (0x003FFFFC#32, .running) := by
  decide +kernel
theorem test_bneg_zero : pcAfter (regsSet []) 0x1900FFFE = some (0x00400004#32, .running) := by decide +kernel
theorem test_beq_far : pcAfter (regsSet [(8, 7#32), (9, 7#32)]) 0x11098000 = some (0x003E0004#32, .running) := by
  decide +kernel
theorem test_beq_wraps : pcAfter { regsSet [] with pc := 0xFFFFFFFC#32 } 0x11080001 = some (4#32, .running) := by
  decide +kernel
theorem test_jmp_known : pcAfter (stringState []) 0x08000003 = some (0x00400020#32, .running) := by decide +kernel
theorem test_jmp_unknown :
    pcAfter (stringState []) 0x08000004 = some (0x00400000#32, .failed .unresolvedSymbol 4#32) := by decide +kernel

theorem test_pstr_prints : outAfter (stringState []) 0x0C000001 = some ([0x48#8, 0x69#8, 0x21#8], .running) := by
  decide +kernel
theorem test_pstr_fails_midway :
    outAfter (brokenState []) 0x0C000001 = some ([0x48#8, 0x69#8], .failed .addressError 0x10010002#32) := by
  decide +kernel
theorem test_syscall_prints_integer :
    outAfter (regsSet [(2, 1#32), (4, 0xFFFFFFD6#32)]) 0x0000000C = some ([0x2D#8, 0x34#8, 0x32#8], .running) := by
  decide +kernel
theorem test_syscall_unsupported :
    outAfter (regsSet [(2, 2#32)]) 0x0000000C = some ([], .failed .unsupportedOperation 2#32) := by decide +kernel

theorem test_pixel_little_endian :
    bytesAfter (regsSet [(8, 3#32), (9, 2#32), (10, 0x01020304#32)]) 0x71095000
      [0x1004100B, 0x1004100C, 0x1004100D, 0x1004100E, 0x1004100F, 0x10041010]
      = some [0#8, 4#8, 3#8, 2#8, 1#8, 0#8] := by decide +kernel
theorem test_pixel_invalid_word :
    pcAfter (withValid (regsSet [(8, 1#32), (9, 1#32)]) []) 0x71095000
      = some (0x00400000#32, .failed .addressError 0x10040804#32) := by decide +kernel
theorem test_fillall_stops :
    (after (withValid (regsSet [(8, 0x11223344#32)]) [⟨0, 0x10040010⟩]) 0x71000001).map
      (fun t => (t.mem.length, t.status)) = some (16, .failed .addressError 0x10040010#32) := by decide +kernel
theorem test_fillrow_stops :
    (after (withValid (regsSet [(8, 2#32), (9, 0xFF#32)]) [⟨0, 0x10041008⟩]) 0x71090002).map (fun t => (t.mem, t.status))
      = some ([(0x10041000, 0xFF#8), (0x10041004, 0xFF#8)], .failed .addressError 0x10041008#32) := by decide +kernel
theorem test_fillrow_outside : bytesAfter (regsSet [(8, 512#32), (9, 0xFF#32)]) 0x71090002 [0x10140000, 0x10040000]
      = some [0#8, 0#8] := by decide +kernel
theorem test_fillcol_stops :
    (after (withValid (regsSet [(8, 5#32), (9, 0xFF#32)]) [⟨0, 0x10041010⟩]) 0x71090003).map (fun t => (t.mem, t.status))
      = some ([(0x10040014, 0xFF#8), (0x10040814, 0xFF#8)], .failed .addressError 0x10041014#32) := by decide +kernel
theorem test_sprite_pixels :
    bytesAfter (regsSet [(8, 10#32)]) 0x71000004 [0x10072030, 0x1007382C, 0x1007382D, 0x1007382E, 0x10075038, 0x1007503A]
      = some [0xFF#8, 0x99#8, 0xCC#8, 0xFF#8, 0x80#8, 0x80#8] := by decide +kernel
theorem test_sprite_clipped :
    (after (regsSet [(8, -3#32)]) 0x71000004).map (fun t => (t.mem.map fun e => e.1 / 4).eraseDups.length) = some 10 := by
  decide +kernel

theorem test_unmatched_word : pcAfter (regsSet []) 0x00000000 = some (0x00400000#32, .failed .noMatch 0#32) := by
  decide +kernel
theorem test_fetch_fails_off_the_program :
    (nextOf (step State.reset)).map (fun t => (t.pc, t.status))
      = some (0x00400000#32, .failed .fetchError 0x00400000#32) := by decide +kernel

/-! ### Witnesses: states and operands that meet the hypotheses of the statements of Certificates/Slice0/Obligations.lean -/

/-- SYSCALL is the next word fetched. -/
def syscallState (rs : List (Reg × Word)) : State := (regsSet rs).withFetchWord 32 0x0000000C

theorem decode_syscall : decode 0x0000000C#32 = .ok .syscall := rfl

theorem canDraw_reset : State.reset.plat.CanDraw := by
  refine ⟨by decide, fun a _ h => ?_⟩
  have hb : u32 State.reset.plat.cfg.fbBase = 0x10040000 := rfl
  have ha : a < addressCount := by unfold addressCount; omega
  simp [validByte, State.reset, State.launch, resetPlatform, ha]

theorem witness_DecodeThenEncodeIsIdentity : ∃ w i, decode w = .ok i := ⟨_, _, decode_syscall⟩

theorem witness_AtMostOneEntryMatches :
    ∃ (w : Word) (j k : Nat) (e f : Entry), catalog[j]? = some e ∧ catalog[k]? = some f ∧
      w &&& e.mask = e.matchBits ∧ w &&& f.mask = f.matchBits :=
  ⟨0x0000000C#32, 19, 19, _, _, rfl, rfl, by decide +kernel, by decide +kernel⟩

theorem witness_ConstructionCheckIsExact :
    checkCatalog [addiEntry, { subiEntry with mnemonic := "ADDI" }] = some ⟨0, 1⟩ ∧ 0 < 1 :=
  ⟨test_check_same_mnemonic, by decide⟩

theorem witness_PowerUpChecksThenLaunches :
    addiEntry ∈ [addiEntry] ∧ checkCatalog [addiEntry, subiEntry] = none ∧
      checkCatalog [addiEntry, { subiEntry with mnemonic := "ADDI" }] = some ⟨0, 1⟩ :=
  ⟨List.mem_cons_self .., test_check_passes, test_check_same_mnemonic⟩

theorem witness_StepRunsTheDecodedInstruction :
    (syscallState []).status = .running ∧ (syscallState []).plat.cfg.wellFormed = true ∧
      u32 (syscallState []).pc % 4 = 0 ∧ lookupKey (syscallState []).pc (syscallState []).plat.imem = some 0x0000000C#32 ∧
      decode 0x0000000C#32 = .ok .syscall := by
  refine ⟨?_, ?_, ?_, ?_, decode_syscall⟩ <;> decide +kernel

/-- The driver's hypotheses hold and the dispatched word reports the outcome. -/
def dispatches (s : State) (w : Nat) (o : DispatchOutcome) : Bool :=
  let u := s.withFetchWord 32 w
  decide (u.status = .running) && u.plat.cfg.wellFormed && u32 u.pc % 4 == 0
    && decide (lookupKey u.pc u.plat.imem = some (tableWord 32 w))
    && (nextOf (dispatch (tableWord 32 w) u)).any fun t => t.outcome = some o

theorem witness_DriverStepFollowsTheRule_next : dispatches (regsSet []) 0x3C080000 .next = true := by decide +kernel
theorem witness_DriverStepFollowsTheRule_transfer :
    dispatches { regsSet [] with pc := 0xFFFFFFFC#32 } 0x11080001 (.transfer 4#32) = true := by decide +kernel
theorem witness_DriverStepFollowsTheRule_terminate : dispatches (regsSet [(2, 10#32)]) 0x0000000C .terminate = true := by
  decide +kernel
theorem witness_DriverStepFollowsTheRule_fail :
    dispatches (regsSet [(2, 2#32)]) 0x0000000C (.fail .unsupportedOperation 2#32) = true := by decide +kernel
theorem witness_DriverStepFollowsTheRule_stopped :
    ({ State.reset with status := .terminated } : State).status ≠ .running := by decide

theorem witness_FetchFailureStopsTheDriver_misaligned :
    let s : State := { regsSet [] with pc := 0x00400001#32 }
    s.status = .running ∧ s.plat.cfg.wellFormed = true ∧ u32 s.pc % 4 ≠ 0 := by decide
theorem witness_FetchFailureStopsTheDriver_unmapped :
    let s := State.reset
    s.status = .running ∧ s.plat.cfg.wellFormed = true ∧ lookupKey s.pc s.plat.imem = none := by decide

theorem witness_UnmatchedWordFailsWithNoMatch : ∀ e ∈ catalog, 0x00210005#32 &&& e.mask ≠ e.matchBits := by
  decide +kernel

theorem witness_StatusFollowsTheOutcomes_terminated :
    ∃ t, step (syscallState [(2, 10#32)]) = .next t ∧ decide (t.status = .terminated) = true :=
  eq_next_of (by decide +kernel)
theorem witness_StatusFollowsTheOutcomes_failed :
    ∃ t, step (syscallState [(2, 2#32)]) = .next t ∧ decide (t.status = .failed .unsupportedOperation 2#32) = true :=
  eq_next_of (by decide +kernel)
theorem witness_StatusFollowsTheOutcomes_fetchError :
    ∃ t, step State.reset = .next t ∧ decide (t.status = .failed .fetchError 0x00400000#32) = true :=
  eq_next_of (by decide +kernel)
theorem witness_StatusFollowsTheOutcomes_stopped :
    ({ State.reset with status := .failed .noMatch 0#32 } : State).status ≠ .running := by decide

theorem witness_InvalidConfigurationIsRefused :
    (withCfg State.reset { bankBase := 25 }).status = .running ∧ (25 : Nat) > 24 := by decide

theorem witness_EachOutcomeComesFromItsInstructions :
    (∃ t, exec (.bneg 8 0xFFFF#16) (regsSet [(8, -1#32)]) = .next t ∧
      decide (t.outcome = some (.transfer 0x00400000#32)) = true) ∧
      (∃ t, exec (.jmp 4#16) State.reset = .next t ∧ decide (t.outcome = some (.fail .unresolvedSymbol 4#32)) = true) ∧
      ∃ t, dispatch 0xFFFFFFFF#32 State.reset = .next t ∧
        decide (t.outcome = some (.fail .noMatch 0xFFFFFFFF#32)) = true :=
  ⟨eq_next_of (by decide +kernel), eq_next_of (by decide +kernel), eq_next_of (by decide +kernel)⟩

theorem witness_EachOutcomeComesFromItsInstructions_addressError :
    (∃ t, exec (.pstr 1#16) (brokenState []) = .next t ∧
      decide (t.outcome = some (.fail .addressError 0x10010002#32)) = true) ∧
      (∃ t, exec (.pixel 8 8 8) (withValid (regsSet []) [⟨0, 0x10040003⟩]) = .next t ∧
        decide (t.outcome = some (.fail .addressError 0x10040000#32)) = true) ∧
      ∃ t, exec (.sprite 8) (withValid (regsSet [(8, 10#32)]) [⟨0, 0x10072033⟩]) = .next t ∧
        decide (t.outcome = some (.fail .addressError 0x10072030#32)) = true :=
  ⟨eq_next_of (by decide +kernel), eq_next_of (by decide +kernel), eq_next_of (by decide +kernel)⟩
theorem witness_EachOutcomeComesFromItsInstructions_services :
    (∃ t, exec .syscall (regsSet [(2, 10#32)]) = .next t ∧ decide (t.outcome = some .terminate) = true) ∧
      (∃ t, exec .syscall (regsSet [(2, 0xFFFFFFFF#32)]) = .next t ∧
        decide (t.outcome = some (.fail .unsupportedOperation 0xFFFFFFFF#32)) = true) ∧
      (∃ t, exec (.jmp 3#16) (stringState []) = .next t ∧
        decide (t.outcome = some (.transfer 0x00400020#32)) = true) ∧
      ∃ t, step State.reset = .next t ∧ decide (t.status = .failed .fetchError 0x00400000#32) = true :=
  ⟨eq_next_of (by decide +kernel), eq_next_of (by decide +kernel), eq_next_of (by decide +kernel),
    eq_next_of (by decide +kernel)⟩

theorem witness_RoutinesNeverTouchTheDriver :
    (∃ t, exec .syscall State.reset = .next t ∧ true = true) ∧
      (∀ rs imm, Instr.syscall ≠ .bpos rs imm ∧ Instr.syscall ≠ .bneg rs imm) ∧
      ∀ rs rt imm, Instr.syscall ≠ .beq rs rt imm :=
  ⟨eq_next_of (p := fun _ => true) (by decide +kernel), by simp, by simp⟩

theorem witness_InvariantHoldsAtLaunch : Memory.wf hiMemory = true ∧ hiMemory.inside resetPlatform = true := by
  decide +kernel

theorem witness_EveryStepKeepsTheInvariant :
    ((regsSet [(8, 511#32), (9, 511#32), (10, 0xAABBCCDD#32)]).withFetchWord 32 0x71095000).Inv ∧
      ∃ t, step ((regsSet [(8, 511#32), (9, 511#32), (10, 0xAABBCCDD#32)]).withFetchWord 32 0x71095000) = .next t ∧
        decide (t.mem.length = 4) = true := by
  refine ⟨⟨?_, ?_, ?_, ?_⟩, eq_next_of ?_⟩ <;> decide +kernel

theorem witness_LaunchStateIsTheTableOfReset : (31 : Reg) ≠ 0 := by decide

/-- A memory that lists 1 at every one of the first `n` addresses reads 1 there. -/
theorem read_ones (lo n a : Nat) (h : lo ≤ a) (h' : a < lo + n) :
    Memory.read ((List.range' lo n).map fun k => (k, 1#8)) a = 1#8 := by
  induction n generalizing lo with
  | zero => omega
  | succ n ih =>
    rw [List.range'_succ, List.map_cons, Memory.read]
    split
    · rfl
    · exact ih (lo + 1) (by omega) (by omega)

/-- Every address is valid and holds 1, and PSTR's label 0 is known. -/
def onesState (rs : List (Reg × Word)) : State :=
  { regsSet rs with
    mem := (List.range' 0 addressCount).map fun k => (k, 1#8)
    plat := { resetPlatform with symTab := [(0#16, 0#32)] } }

theorem ones_everywhere (rs : List (Reg × Word)) : ∀ a : Word, ∃ b, b ≠ 0#8 ∧ (onesState rs).memRead a = some b := by
  intro a
  have ha : u32 a < addressCount := a.isLt
  refine ⟨1#8, by decide, ?_⟩
  unfold State.memRead
  rw [if_pos (by simp [validByte, onesState, resetPlatform, ha])]
  exact congrArg some (read_ones 0 addressCount (u32 a) (Nat.zero_le _) (by omega))

/-- An IMem of consecutive words from PC_RESET on. -/
def program (ws : List Word) : State :=
  { State.reset with plat := { resetPlatform with
      imem := ws.zipIdx.map fun w => (0x00400000#32 + BitVec.ofNat 32 (4 * w.2), w.1) } }

/-- What a bounded run came to: pc, status, completed instructions, and why it stopped. -/
def ranTo (fuel : Nat) (s : State) : Word × Status × Nat × RunEnd :=
  let r := s.runFor fuel
  (r.state.pc, r.state.status, r.completed, r.ending)

/-- P5 of section 3 of spec/95_test_vectors.md. -/
theorem test_run_p5 : ranTo 9 (program [0x3C080000#32, 0x00000000#32])
    = (0x00400004#32, .failed .noMatch 0#32, 1, .ended) := by decide +kernel
/-- The word 0x1108FFFF of R235 transfers to itself. -/
theorem test_run_self_loop : ranTo 3 (program [0x1108FFFF#32]) = (0x00400000#32, .running, 3, .outOfSteps) := by
  decide +kernel

/-- P4 of section 3 of spec/95_test_vectors.md: 3 steps, 2 of them completed. -/
theorem witness_RunRepeatsTheStepUntilItEnds :
    ∃ e, RunsTo (program [0x3C020000#32, 0x34420002#32, 0x0000000C#32, 0x3C090001#32]) 2 e ∧
      e.status = .failed .unsupportedOperation 2#32 ∧ e.pc = 0x00400008#32 :=
  by
  let s := program [0x3C020000#32, 0x34420002#32, 0x0000000C#32, 0x3C090001#32]
  have hn : (s.runFor 9).completed = 2 := by decide +kernel
  have he : (s.runFor 9).ending = .ended := by decide +kernel
  refine ⟨(s.runFor 9).state, runsTo_of_runFor (fuel := 9) rfl ?_, by decide +kernel, by decide +kernel⟩
  rw [← hn, ← he]
theorem witness_RunRepeatsTheStepUntilItEnds_loop :
    let s := program [0x1108FFFF#32]
    s.status = .running ∧ s.plat.cfg.wellFormed = true ∧ u32 s.pc % 4 = 0 ∧
      lookupKey s.pc s.plat.imem = some 0x1108FFFF#32 := by decide
theorem memRead_withFetchWord (s : State) (nbits w : Nat) (a : Word) :
    (s.withFetchWord nbits w).memRead a = s.memRead a := rfl
/-- The word of PSTR at label 0, known to be address 0, prints from there. -/
theorem dispatch_pstr_zero {s : State} (h : lookupKey 0#16 s.plat.symTab = some 0#32) :
    dispatch 0x0C000000#32 s = printString 0#32 s := by
  have hd : decode 0x0C000000#32 = .ok (.pstr 0#16) := rfl
  simp only [dispatch, hd, exec, execPstr, State.symResolve, h]
theorem witness_RunRepeatsTheStepUntilItEnds_stuck :
    let s := (onesState []).withFetchWord 32 0x0C000000
    s.status = .running ∧ s.plat.cfg.wellFormed = true ∧ s.fetch = some 0x0C000000#32 ∧
      dispatch 0x0C000000#32 s = .fault .stringNeverEnds :=
  ⟨rfl, rfl, rfl, by
    rw [dispatch_pstr_zero rfl, printString]
    refine printLoop_endless (fun a => ?_) _ _
    rw [memRead_withFetchWord]
    exact ones_everywhere [] a⟩

theorem witness_PlatformNeverChanges : ∃ t, step (syscallState [(2, 10#32)]) = .next t ∧ true = true :=
  eq_next_of (p := fun _ => true) (by decide +kernel)

/-- The JMP word's label 3 is aligned; label 2, PSTR's in section 2.3 of spec/95_test_vectors.md, is odd. -/
theorem witness_AlignedJumpLabelsKeepThePcAligned :
    let s := (stringState []).withFetchWord 32 0x08000003
    s.plat.JumpsAligned ∧ s.PcAligned ∧ (∃ t, step s = .next t ∧ decide (t.pc = 0x00400020#32) = true) ∧
      lookupKey 2#16 s.plat.symTab = some 0x10010003#32 := by
  refine ⟨fun at' iw ref a hw hd ht => ?_, by unfold State.PcAligned; decide +kernel, eq_next_of (by decide +kernel),
    by decide⟩
  have hw : (if (0x00400000#32 : Word) = at' then some 0x08000003#32 else none) = some iw := hw
  split at hw <;> cases hw
  have hd : Except.ok (Instr.jmp 3#16) = Except.ok (ε := DecodeError) (Instr.jmp ref) := hd
  cases hd
  have ht : some 0x00400020#32 = some a := ht
  cases ht
  decide

theorem witness_OnlyFramebufferBytesChange :
    (∃ t, step ((regsSet [(8, 511#32), (9, 511#32), (10, 1#32)]).withFetchWord 32 0x71095000) = .next t ∧
      decide (t.mem.length = 1) = true) ∧
      0x1003FFFF < u32 State.reset.plat.cfg.fbBase ∧ u32 State.reset.plat.cfg.fbBase + 0x100000 ≤ 0x10140000 :=
  ⟨eq_next_of (by decide +kernel), by decide, by decide⟩

theorem witness_FailureLeavesEarlierEffectsOnly_addressError :
    ∃ t, step ((withValid (regsSet [(8, 1#32)]) [⟨0, 0x10040008⟩]).withFetchWord 32 0x71000001) = .next t ∧
      decide (t.status = .failed .addressError 0x10040008#32) = true :=
  eq_next_of (by decide +kernel)
theorem witness_FailureLeavesEarlierEffectsOnly_printing :
    ∃ t, step ((brokenState []).withFetchWord 32 0x0C000001) = .next t ∧
      decide (t.status = .failed .addressError 0x10010002#32 ∧ t.out = [0x48#8, 0x69#8]) = true :=
  eq_next_of (by decide +kernel)
theorem witness_FailureLeavesEarlierEffectsOnly_other :
    ∃ t, step (syscallState []) = .next t ∧ decide (t.status = .failed .unsupportedOperation 0#32) = true :=
  eq_next_of (by decide +kernel)

theorem witness_EachFamilyHasOnlyItsEffects :
    (Instr.jmp 4#16).isArith = false ∧ (Instr.jmp 4#16).draws = false ∧ Instr.jmp 4#16 ≠ .syscall ∧
      (∀ ref, Instr.jmp 4#16 ≠ .pstr ref) ∧ ∃ t, exec (.jmp 4#16) State.reset = .next t ∧ true = true :=
  ⟨rfl, rfl, by simp, by simp, eq_next_of (p := fun _ => true) (by decide +kernel)⟩

theorem witness_BidxIsTheFlooredResidue_zero : ((regsSet []).readReg 9).toInt ≤ 0 := by decide
/-- `s` has -5 and the modulus 3, `s'` has 4: they differ by 3 times 3. -/
theorem witness_BidxIsTheFlooredResidue_positive :
    let s := regsSet [(8, -5#32), (9, 3#32)]
    let s' := regsSet [(8, 4#32), (9, 3#32)]
    0 < (s.readReg 9).toInt ∧ (∃ t', exec (.bidx 10 8 9) s' = .next t' ∧ true = true) ∧ s'.hardwired 10 = false ∧
      s'.readReg 9 = s.readReg 9 ∧ (s.readReg 9).toInt ∣ (s'.readReg 8).toInt - (s.readReg 8).toInt :=
  ⟨by decide, eq_next_of (p := fun _ => true) (by decide +kernel), by decide, by decide, by decide⟩

theorem witness_SumbankWritesTheBanksSum :
    (withCfg State.reset { bankBase := 24 }).plat.cfg.wellFormed = true ∧
      bankRegisters { bankBase := 24 } = [24, 25, 26, 27, 28, 29, 30, 31] := by decide

theorem witness_DrainDecrementsPositiveBankRegisters :
    (withCfg State.reset { bankBase := 24 }).plat.cfg.wellFormed = true := by decide

theorem witness_BranchFieldReachesItsLabel :
    let s := regsSet [(8, 1#32), (9, -1#32)]
    u32 s.pc % 4 = 0 ∧ u32 0x003E0004#32 % 4 = 0 ∧ -32768 ≤ ((u32 0x003E0004#32 : Int) - (u32 s.pc + 4)) / 4 ∧
      ((u32 0x003E0004#32 : Int) - (u32 s.pc + 4)) / 4 ≤ 32767 ∧ branchField s.pc 0x003E0004#32 = 0x8000#16 ∧
      0 < (s.readReg 8).toInt ∧ (s.readReg 9).toInt < 0 ∧ s.readReg 10 = s.readReg 11 := by decide
/-- The other end of the range. -/
theorem witness_BranchFieldReachesItsLabel_forward :
    u32 0x00420000#32 % 4 = 0 ∧ ((u32 0x00420000#32 : Int) - (u32 0x00400000#32 + 4)) / 4 = 32767 ∧
      branchField 0x00400000#32 0x00420000#32 = 0x7FFF#16 := by decide

theorem witness_JmpTransfersToTheResolvedLabel :
    lookupKey 3#16 symbolPlatform.symTab = some 0x00400020#32 ∧ lookupKey 0xFFFF#16 symbolPlatform.symTab = none := by
  decide

theorem hi_string : StringAt (stringState []) 0x10010000#32 [0x48#8, 0x69#8, 0x21#8] := by
  simp only [StringAt]
  decide +kernel

theorem hi_broken : BrokenStringAt (brokenState []) 0x10010000#32 [0x48#8, 0x69#8] 0x10010002#32 := by
  simp only [BrokenStringAt]
  decide +kernel

theorem witness_PstrPrintsTheStringAtItsLabel_string :
    lookupKey 1#16 (stringState []).plat.symTab = some 0x10010000#32 ∧
      [0x48#8, 0x69#8, 0x21#8].length < 4294967296 ∧ StringAt (stringState []) 0x10010000#32 [0x48#8, 0x69#8, 0x21#8] :=
  ⟨by decide, by decide, hi_string⟩
theorem witness_PstrPrintsTheStringAtItsLabel_broken :
    lookupKey 1#16 (brokenState []).plat.symTab = some 0x10010000#32 ∧ [0x48#8, 0x69#8].length < 4294967296 ∧
      BrokenStringAt (brokenState []) 0x10010000#32 [0x48#8, 0x69#8] 0x10010002#32 :=
  ⟨by decide, by decide, hi_broken⟩
theorem witness_PstrPrintsTheStringAtItsLabel_unknown : lookupKey 9#16 (stringState []).plat.symTab = none := by decide

theorem witness_SyscallRunsTheSelectedService_printInt :
    let s := regsSet [(2, 1#32), (4, 0x80000000#32)]
    (s.readReg s.plat.cfg.sysSelReg).toInt = s.plat.cfg.svcPrintInt := by decide
theorem witness_SyscallRunsTheSelectedService_printStr :
    let s := stringState [(2, 4#32), (4, 0x10010000#32)]
    (s.readReg s.plat.cfg.sysSelReg).toInt ≠ s.plat.cfg.svcPrintInt ∧
      (s.readReg s.plat.cfg.sysSelReg).toInt = s.plat.cfg.svcPrintStr ∧
      s.memRead (s.readReg s.plat.cfg.sysArgReg) = some 0x48#8 ∧
      StringAt s (s.readReg s.plat.cfg.sysArgReg) [0x48#8, 0x69#8, 0x21#8] := by
  simp only [StringAt]
  decide +kernel
theorem witness_SyscallRunsTheSelectedService_printStr_broken :
    let s := brokenState [(2, 4#32), (4, 0x10010000#32)]
    (s.readReg s.plat.cfg.sysSelReg).toInt ≠ s.plat.cfg.svcPrintInt ∧
      (s.readReg s.plat.cfg.sysSelReg).toInt = s.plat.cfg.svcPrintStr ∧
      BrokenStringAt s (s.readReg s.plat.cfg.sysArgReg) [0x48#8, 0x69#8] 0x10010002#32 := by
  simp only [BrokenStringAt]
  decide +kernel
theorem witness_SyscallRunsTheSelectedService_exit :
    let s := regsSet [(2, 10#32)]
    let sel := (s.readReg s.plat.cfg.sysSelReg).toInt
    sel ≠ s.plat.cfg.svcPrintInt ∧ sel ≠ s.plat.cfg.svcPrintStr ∧ sel = s.plat.cfg.svcExit := by decide
theorem witness_SyscallRunsTheSelectedService_unsupported :
    let s := regsSet [(2, 0xFFFFFFFF#32)]
    let sel := (s.readReg s.plat.cfg.sysSelReg).toInt
    sel ≠ s.plat.cfg.svcPrintInt ∧ sel ≠ s.plat.cfg.svcPrintStr ∧ sel ≠ s.plat.cfg.svcExit := by decide

theorem witness_TerminateStopsWithoutFailing :
    let s := syscallState [(2, 10#32)]
    s.status = .running ∧ s.plat.cfg.wellFormed = true ∧ u32 s.pc % 4 = 0 ∧
      lookupKey s.pc s.plat.imem = some 0x0000000C#32 ∧
      (s.readReg s.plat.cfg.sysSelReg).toInt = s.plat.cfg.svcExit ∧
      s.plat.cfg.svcExit ≠ s.plat.cfg.svcPrintInt ∧ s.plat.cfg.svcExit ≠ s.plat.cfg.svcPrintStr := by decide +kernel

theorem witness_DecimalTextSpellsItsInteger :
    decimalText (-2147483648) = [0x2D#8, 0x32#8, 0x31#8, 0x34#8, 0x37#8, 0x34#8, 0x38#8, 0x33#8, 0x36#8, 0x34#8, 0x38#8] ∧
      decimalText 2147483647 = [0x32#8, 0x31#8, 0x34#8, 0x37#8, 0x34#8, 0x38#8, 0x33#8, 0x36#8, 0x34#8, 0x37#8] ∧
      decimalText 0 = [0x30#8] := by decide +kernel

theorem witness_EndlessStringNeverCompletes :
    (∀ a : Word, ∃ b, b ≠ 0#8 ∧ (onesState [(2, 4#32)]).memRead a = some b) ∧
      lookupKey 0#16 (onesState [(2, 4#32)]).plat.symTab = some 0#32 ∧
      ((onesState [(2, 4#32)]).readReg 2).toInt = 4 :=
  ⟨ones_everywhere _, rfl, rfl⟩

theorem witness_PixelWritesItsWordOrNothing_outside :
    let s := regsSet [(8, 512#32), (9, -1#32)]
    ¬ ((0 ≤ (s.readReg 8).toInt ∧ (s.readReg 8).toInt < 512) ∧ 0 ≤ (s.readReg 9).toInt ∧ (s.readReg 9).toInt < 512) := by
  decide
theorem witness_PixelWritesItsWordOrNothing_inside :
    let s := regsSet [(8, 511#32), (9, 511#32)]
    s.plat.cfg.wellFormed = true ∧ (s.readReg 8).toInt = (511 : Nat) ∧ (s.readReg 9).toInt = (511 : Nat) ∧
      validWord s.plat (pixelByte s.plat.cfg 511 511) = true ∧ s.mem.wf = true := by decide
theorem witness_PixelWritesItsWordOrNothing_invalid :
    let s := withValid (regsSet []) [⟨0, 0x10040003⟩]
    s.plat.cfg.wellFormed = true ∧ (s.readReg 8).toInt = (0 : Nat) ∧ (s.readReg 9).toInt = (0 : Nat) ∧
      validWord s.plat (pixelByte s.plat.cfg 0 0) = false := by decide

theorem witness_FillallPaintsEveryPixel : State.reset.plat.CanDraw ∧ State.reset.mem.wf = true :=
  ⟨canDraw_reset, rfl⟩
theorem witness_FillrowPaintsItsRow :
    State.reset.plat.CanDraw ∧ State.reset.mem.wf = true ∧ ((regsSet [(8, 511#32)]).readReg 8).toInt = 511 ∧
      ¬ (0 ≤ ((regsSet [(8, 512#32)]).readReg 8).toInt ∧ ((regsSet [(8, 512#32)]).readReg 8).toInt < 512) :=
  ⟨canDraw_reset, rfl, by decide, by decide⟩
theorem witness_FillcolPaintsItsColumn :
    State.reset.plat.CanDraw ∧ State.reset.mem.wf = true ∧ ((regsSet [(8, 511#32)]).readReg 8).toInt = 511 ∧
      ¬ (0 ≤ ((regsSet [(8, -1#32)]).readReg 8).toInt ∧ ((regsSet [(8, -1#32)]).readReg 8).toInt < 512) :=
  ⟨canDraw_reset, rfl, by decide, by decide⟩
theorem sprite_words_elsewhere :
    (spritePixels State.reset.plat.cfg 10#32).all
      (fun w => decide (0x1007202F < u32 w.1 ∨ u32 w.1 + 4 ≤ 0x1007202F)) = true := by decide +kernel
theorem witness_SpriteDrawsItsTableClipped :
    State.reset.plat.cfg.spriteRowsFit ∧ State.reset.plat.CanDraw ∧
      (spritePixels State.reset.plat.cfg 10#32).length = 27 ∧
      ∀ w ∈ spritePixels State.reset.plat.cfg 10#32, 0x1007202F < u32 w.1 ∨ u32 w.1 + 4 ≤ 0x1007202F :=
  ⟨by unfold Config.spriteRowsFit; decide, canDraw_reset, by decide +kernel,
    fun w hw => of_decide_eq_true (List.all_eq_true.1 sprite_words_elsewhere w hw)⟩
/-- The last row a base row may give, and a table with one pixel on it. -/
theorem witness_SpriteDrawsItsTableClipped_edge :
    ({ spriteBaseY := 2147483640, spriteTable := [⟨0, 7, 1#32⟩] } : Config).spriteRowsFit := by
  unfold Config.spriteRowsFit
  decide
/-- A row outside the signed range: 2^32 + 5 is drawn as row 5. -/
theorem witness_SpriteRowIsReducedModulo :
    State.reset.plat.CanDraw ∧
      (spriteWrites { spriteBaseY := 4294967296, spriteTable := [⟨0, 5, 1#32⟩] } 0#32 = [(0x10042800#32, 1#32)]) ∧
      (0x10042804 < u32 0x10042800#32 ∨ u32 0x10042800#32 + 4 ≤ 0x10042804) :=
  ⟨canDraw_reset, by decide +kernel, by decide⟩
theorem witness_PixelWordsAreDistinctAndInside :
    ({ fbBase := 0xFFF00000#32 } : Config).wellFormed = true ∧ 511 < 512 ∧ (511, 510) ≠ (510, 511) := by decide

theorem witness_RegisterPortReturnsTheLastWrite :
    (1 : Reg) ≠ 0 ∧ ¬ (State.reset.plat.cfg.reg0Zero = true ∧ (1 : Reg) = 0) ∧
      ¬ ((withCfg State.reset { reg0Zero := false }).plat.cfg.reg0Zero = true ∧ (0 : Reg) = 0) ∧
      State.reset.plat.cfg.reg0Zero = true := by decide

theorem witness_MemoryPortReadsWhatWasWritten :
    let p := (withValid State.reset [⟨0, 6⟩]).plat
    validByte p (u32 5#32) = true ∧ validByte p (u32 6#32) = false ∧ Memory.wf hiMemory = true ∧
      (u32 0#32 % 4 = 0 ∧ ∀ k, k < 4 → validByte p (u32 0#32 + k) = true) ∧
      ¬ (u32 2#32 % 4 = 0 ∧ ∀ k, k < 4 → validByte p (u32 2#32 + k) = true) ∧
      ¬ (u32 4#32 % 4 = 0 ∧ ∀ k, k < 4 → validByte p (u32 4#32 + k) = true) := by decide +kernel

end Sys2Proof.Tests
end

section
/-! Proofs for `00_scope.md`: no instruction refuses, so the only refusal of a step is that
of the configuration (R9, U15). -/

namespace Sys2Proof.Machine

open Sys2Proof

/-! ### What an instruction's transaction answers -/

/-- A branch completes or requests a transfer, and does nothing else (R140). -/
theorem branchIf_next (taken : Bool) (imm : Half) (s : State) : ∃ t, branchIf taken imm s = .next t := by
  cases taken with
  | true => exact ⟨_, rfl⟩
  | false => exact ⟨_, rfl⟩

theorem execJmp_next (ref : Half) (s : State) : ∃ t, execJmp ref s = .next t := by
  unfold execJmp
  cases s.symResolve ref with
  | some a => exact ⟨_, rfl⟩
  | none => exact ⟨_, rfl⟩

/-- `printString_cases` without the text that is emitted: the string loop answers a state or never ends (U8). -/
theorem printString_next_or_endless (a : Word) (s : State) :
    (∃ t, printString a s = .next t) ∨
      (printString a s = .fault .stringNeverEnds ∧ ∀ a : Word, ∃ b, b ≠ 0#8 ∧ s.memRead a = some b) := by
  rcases printString_cases a s with ⟨_, _, h⟩ | ⟨_, _, _, h⟩ | h
  · exact .inl ⟨_, h⟩
  · exact .inl ⟨_, h⟩
  · exact .inr h

theorem execPstr_next_or_endless (ref : Half) (s : State) :
    (∃ t, execPstr ref s = .next t) ∨
      (execPstr ref s = .fault .stringNeverEnds ∧ ∀ a : Word, ∃ b, b ≠ 0#8 ∧ s.memRead a = some b) := by
  unfold execPstr
  cases s.symResolve ref with
  | some a => exact printString_next_or_endless a s
  | none => exact .inl ⟨_, rfl⟩

theorem execSyscall_next_or_endless (s : State) :
    (∃ t, execSyscall s = .next t) ∨
      (execSyscall s = .fault .stringNeverEnds ∧ ∀ a : Word, ∃ b, b ≠ 0#8 ∧ s.memRead a = some b) := by
  unfold execSyscall
  dsimp only
  split
  · exact .inl ⟨_, rfl⟩
  split
  · exact printString_next_or_endless _ s
  split
  · exact .inl ⟨_, rfl⟩
  · exact .inl ⟨_, rfl⟩

/-- Every instruction answers a next state in every state, but for a string without an end (R33, U8). -/
theorem exec_next_or_endless (i : Instr) (s : State) :
    (∃ t, exec i s = .next t) ∨
      (exec i s = .fault .stringNeverEnds ∧ (i = .syscall ∨ ∃ ref, i = .pstr ref) ∧
        ∀ a : Word, ∃ b, b ≠ 0#8 ∧ s.memRead a = some b) := by
  cases i with
  | bpos rs imm | bneg rs imm | beq rs rt imm => exact .inl (branchIf_next _ imm s)
  | jmp ref => exact .inl (execJmp_next ref s)
  | pstr ref => exact (execPstr_next_or_endless ref s).imp_right fun ⟨h, hk⟩ => ⟨h, .inr ⟨ref, rfl⟩, hk⟩
  | syscall => exact (execSyscall_next_or_endless s).imp_right fun ⟨h, hk⟩ => ⟨h, .inl rfl, hk⟩
  | pixel | fillall | fillrow | fillcol | sprite => exact .inl ((exec_paints rfl s).imp fun _ => And.left)
  | addi | subi | maxmag | avg | xor | cmp3 | clamp | modnorm | sgnc | bidx | sumbank | drain | lui | ori =>
    exact .inl ⟨_, rfl⟩

theorem exec_ne_refused (i : Instr) (s : State) (r : Refusal) : exec i s ≠ .refused r := by
  rcases exec_next_or_endless i s with ⟨t, h⟩ | ⟨h, -⟩ <;> simp [h]

/-- A word is never refused: one that no entry matches fails with NoMatch (R78). -/
theorem dispatch_ne_refused (iw : Word) (s : State) (r : Refusal) : dispatch iw s ≠ .refused r := by
  unfold dispatch
  cases decode iw with
  | ok i => exact exec_ne_refused i s r
  | error e => simp

/-! ### When a step is refused -/

/-- R9's conditions on a configuration, over the integers. -/
theorem config_wellFormed_iff (c : Config) :
    c.wellFormed = true ↔ u32 c.fbBase % 4 = 0 ∧ u32 c.fbBase + 0x100000 ≤ 4294967296 ∧ c.bankBase ≤ 24 := by
  rw [Config.wellFormed, Bool.and_eq_true, fbBaseOk_iff, Config.bankBaseOk, decide_eq_true_eq, and_assoc]

/-- The step of a machine that is Running, in a configuration R9 forbids (U15). -/
theorem step_of_not_wellFormed {s : State} (hs : s.status = .running) (hc : ¬ s.plat.cfg.wellFormed = true) :
    step s = .refused .invalidConfiguration := by
  simp only [step, hs, if_neg hc]

/-- In a configuration R9 allows no step is refused. -/
theorem step_ne_refused {s : State} (hc : s.plat.cfg.wellFormed = true) (r : Refusal) : step s ≠ .refused r := by
  unfold step
  cases s.status with
  | terminated => simp
  | failed kind info => simp
  | running =>
    simp only [if_pos hc]
    cases s.fetch with
    | none => simp
    | some iw =>
      cases hd : dispatch iw s with
      | next t => simp [hd]
      | fault f => simp [hd]
      | refused r' => exact absurd hd (dispatch_ne_refused iw s r')

/-- Settles O14: a forbidden configuration is refused at once, and in an allowed one nothing a step does is refused. -/
theorem invalidConfigurationIsRefused : Obligations.InvalidConfigurationIsRefused := by
  intro s hs
  rw [← config_wellFormed_iff]
  exact ⟨fun h hc => step_ne_refused hc _ h, step_of_not_wellFormed hs⟩

end Sys2Proof.Machine
end

section
/-! Proofs for `10_state.md`: the register port and the launch state, what one transaction can do to each piece of state
(`Effects`), what one step makes of it, and that no routine but a relative branch reads the pc. -/

namespace Sys2Proof.Machine

open Sys2Proof

/-! ### The register port and the launch state -/

/-- Register 0 is hard-wired exactly where `REG0_ZERO` says so, and no other register is (R21). -/
theorem hardwired_iff (s : State) (r : Reg) : s.hardwired r = true ↔ s.plat.cfg.reg0Zero = true ∧ r = 0 := by
  rw [State.hardwired, Bool.and_eq_true, beq_iff_eq]

theorem writeReg_hardwired {s : State} {r : Reg} (h : s.hardwired r = true) (v : Word) : s.writeReg r v = s :=
  if_pos h

/-- Settles O59: the read-after-write law of the port, at a register that is hard-wired and at one that is not. -/
theorem registerPortReturnsTheLastWrite : Obligations.RegisterPortReturnsTheLastWrite := by
  intro s r r' v
  refine ⟨fun hne => ?_, fun hr => ?_, fun hz => ?_⟩
  · rw [readReg_writeReg, if_neg fun h => hne h.1]
  · rw [← hardwired_iff, Bool.not_eq_true] at hr
    rw [readReg_writeReg, if_pos ⟨rfl, hr⟩]
  · have hw : s.hardwired 0 = true := (hardwired_iff s 0).2 ⟨hz, rfl⟩
    exact ⟨readReg_hardwired hw, writeReg_hardwired hw v⟩

/-- The launch value of a register (R35). -/
theorem readReg_launch (p : Platform) (x : Vector Word 32) (m : Memory) (r : Reg) :
    (State.launch p x m).readReg r = if p.cfg.reg0Zero = true ∧ r = 0 then 0#32 else x[r] := by
  by_cases hw : (State.launch p x m).hardwired r = true
  · have hr : p.cfg.reg0Zero = true ∧ r = 0 := (hardwired_iff _ r).1 hw
    rw [readReg_hardwired hw, if_pos hr]
  · have hr : ¬ (p.cfg.reg0Zero = true ∧ r = 0) := fun h => hw ((hardwired_iff _ r).2 h)
    rw [State.readReg, if_neg hw, if_neg hr]
    by_cases hz : p.cfg.reg0Zero = true
    · have hne : 0 ≠ (r : Nat) := fun h => hr ⟨hz, Fin.ext h.symm⟩
      simp [State.launch, hz, Vector.getElem_set_ne, hne]
    · simp [State.launch, hz]

/-- The catalog of R80 passes the construction check of R79. -/
theorem checkCatalog_catalog : checkCatalog catalog = none := by
  decide +kernel

/-- Settles O19: the launch state's fields are the table's, and so is what its registers read as. -/
theorem launchStateIsTheTableOfReset : Obligations.LaunchStateIsTheTableOfReset := by
  intro p x m
  refine ⟨rfl, rfl, rfl, rfl, rfl, rfl, rfl, fun r hr => ?_, ?_, checkCatalog_catalog⟩
  · rw [readReg_launch, if_neg fun h => hr h.2]
  · simp [readReg_launch]

theorem inv_launch (p : Platform) (x : Vector Word 32) {m : Memory} (hwf : m.wf = true) (hin : m.inside p = true) :
    (State.launch p x m).Inv := by
  refine ⟨hwf, hin, rfl, fun hz => ?_⟩
  have hz : p.cfg.reg0Zero = true := hz
  simp [State.launch, hz]

/-- Settles O17: reset is the launch with an empty memory. -/
theorem invariantHoldsAtLaunch : Obligations.InvariantHoldsAtLaunch :=
  ⟨inv_launch _ _ rfl rfl, fun p x _ hwf hin => inv_launch p x hwf hin⟩

/-! ### What one transaction can do -/

/-- Only registers are written, and a register 0 that is hard-wired keeps what it stores (R21, R110). -/
structure RegistersOnly (s t : State) : Prop where
  mem : t.mem = s.mem
  out : t.out = s.out
  driver : SameDriver s t
  reg0 : s.plat.cfg.reg0Zero = true → t.x[0] = s.x[0]

theorem RegistersOnly.refl (s : State) : RegistersOnly s s := ⟨rfl, rfl, ⟨rfl, rfl, rfl⟩, fun _ => rfl⟩

theorem RegistersOnly.trans {s t u : State} (h : RegistersOnly s t) (h' : RegistersOnly t u) : RegistersOnly s u := by
  obtain ⟨hm, ho, ⟨hpc, hst, hpl⟩, h0⟩ := h
  obtain ⟨hm', ho', ⟨hpc', hst', hpl'⟩, h0'⟩ := h'
  exact ⟨hm'.trans hm, ho'.trans ho, ⟨hpc'.trans hpc, hst'.trans hst, hpl'.trans hpl⟩,
    fun hz => (h0' (hpl ▸ hz)).trans (h0 hz)⟩

/-- The port never changes what a hard-wired register 0 stores (R28). -/
theorem writeReg_x_zero {s : State} (hz : s.plat.cfg.reg0Zero = true) (r : Reg) (v : Word) :
    (s.writeReg r v).x[0] = s.x[0] := by
  by_cases hr : r = 0
  · rw [writeReg_hardwired ((hardwired_iff s r).2 ⟨hz, hr⟩)]
  · have hw : ¬ s.hardwired r = true := fun h => hr ((hardwired_iff s r).1 h).2
    have hne : (r : Nat) ≠ 0 := fun h => hr (Fin.ext h)
    simp [State.writeReg, hw, Vector.getElem_set_ne, hne]

theorem registersOnly_writeReg (s : State) (r : Reg) (v : Word) : RegistersOnly s (s.writeReg r v) :=
  ⟨by simp, by simp, ⟨by simp, by simp, by simp⟩, fun hz => writeReg_x_zero hz r v⟩

theorem registersOnly_drainLoop (js : List Nat) (s : State) (n : Nat) : RegistersOnly s (drainLoop js s n).1 := by
  induction js generalizing s n with
  | nil => exact .refl s
  | cons j js ih =>
    unfold drainLoop
    dsimp only
    split
    · exact (registersOnly_writeReg s _ _).trans (ih _ _)
    · exact ih s n

/-- Finishing in a state that differs in registers only writes registers only (R110). -/
theorem finishReg_registersOnly (rd : Reg) (v : Word) {s u : State} (hu : RegistersOnly s u) :
    ∃ t, finishReg rd v u = .next t ∧ RegistersOnly s t ∧ t.outcome = some .next := by
  obtain ⟨hm, ho, hd, h0⟩ := hu.trans (registersOnly_writeReg u rd v)
  exact ⟨_, rfl, ⟨hm, ho, hd, h0⟩, rfl⟩

/-- An arithmetic instruction writes its destination and completes, in the state it was given or in the one that DRAIN's
loop leaves (R110, R123). -/
theorem exec_arith {i : Instr} (h : i.isArith = true) (s : State) :
    ∃ t, exec i s = .next t ∧ RegistersOnly s t ∧ t.outcome = some .next := by
  cases i with
  | drain rd => exact finishReg_registersOnly rd _ (registersOnly_drainLoop bankIndices s 0)
  | addi rd | subi rd | lui rd | ori rd => exact finishReg_registersOnly rd _ (.refl s)
  | maxmag rd | avg rd | xor rd | cmp3 rd | bidx rd => exact finishReg_registersOnly rd _ (.refl s)
  | clamp rd | modnorm rd | sgnc rd | sumbank rd => exact finishReg_registersOnly rd _ (.refl s)
  | bpos | bneg | beq | jmp | pstr | syscall | pixel | fillall | fillrow | fillcol | sprite => cases h

/-- Everything one transaction can do (R22, R23, R36): which family changes what, that every word written is a valid one
(R43), and where a requested transfer goes (R141, R145). -/
structure Effects (i : Instr) (s t : State) : Prop where
  driver : SameDriver s t
  regs : i.isArith = false → t.x = s.x
  reg0 : s.plat.cfg.reg0Zero = true → t.x[0] = s.x[0]
  mem : ∃ ws, (∀ w ∈ ws, validWord s.plat (u32 w.1) = true) ∧ t.mem = s.mem.writeWords ws ∧ (i.draws = false → ws = [])
  out : ∃ bs, t.out = s.out ++ bs ∧ (i ≠ .syscall → (∀ ref, i ≠ .pstr ref) → bs = [])
  transfer : ∀ a, t.outcome = some (.transfer a) →
    (∃ imm, a = branchTarget s.pc imm) ∨ ∃ ref, i = .jmp ref ∧ lookupKey ref s.plat.symTab = some a

theorem Effects.of_arith {i : Instr} {s t : State} (hi : i.isArith = true) (h : RegistersOnly s t)
    (hout : t.outcome = some .next) : Effects i s t where
  driver := h.driver
  regs := fun hf => absurd hi (by simp [hf])
  reg0 := h.reg0
  mem := ⟨[], by simp, h.mem, fun _ => rfl⟩
  out := ⟨[], by simp [h.out], fun _ _ => rfl⟩
  transfer := fun a ha => by rw [hout] at ha; cases ha

theorem Effects.of_draws {i : Instr} {s t : State} {ws : List (Word × Word)} (hi : i.draws = true) (hx : t.x = s.x)
    (h : PaintResult s t ws) : Effects i s t := by
  obtain ⟨-, hout, hdriver, done, rest, -, hvalid, hmem, hend⟩ := h
  refine ⟨hdriver, fun _ => hx, fun _ => by rw [hx], ⟨done, hvalid, hmem, fun hf => absurd hi (by simp [hf])⟩,
    ⟨[], by simp [hout], fun _ _ => rfl⟩, fun a ha => ?_⟩
  rcases hend with ⟨-, hnext⟩ | ⟨w, tail, -, -, hfail⟩
  · rw [hnext] at ha; cases ha
  · rw [hfail] at ha; cases ha

/-- A transaction that only reports an outcome; a transfer it requests has to be accounted for. -/
theorem Effects.of_outcome {i : Instr} {s : State} {o : DispatchOutcome}
    (h : ∀ a, o = .transfer a →
      (∃ imm, a = branchTarget s.pc imm) ∨ ∃ ref, i = .jmp ref ∧ lookupKey ref s.plat.symTab = some a) :
    Effects i s { s with outcome := some o } where
  driver := ⟨rfl, rfl, rfl⟩
  regs := fun _ => rfl
  reg0 := fun _ => rfl
  mem := ⟨[], by simp, rfl, fun _ => rfl⟩
  out := ⟨[], by simp, fun _ _ => rfl⟩
  transfer := fun a ha => h a (Option.some.inj ha)

/-- A transaction that prints and then reports an outcome other than a transfer. -/
theorem Effects.of_print {i : Instr} (hi : i = .syscall ∨ ∃ ref, i = .pstr ref) (s : State) (bs : List Byte)
    {o : DispatchOutcome} (ho : ∀ a, o ≠ .transfer a) : Effects i s { s.emit bs with outcome := some o } where
  driver := ⟨rfl, rfl, rfl⟩
  regs := fun _ => rfl
  reg0 := fun _ => rfl
  mem := ⟨[], by simp, rfl, fun _ => rfl⟩
  out := ⟨bs, rfl, fun hs hp => (hi.elim hs fun ⟨ref, h⟩ => hp ref h).elim⟩
  transfer := fun a ha => (ho a (Option.some.inj ha)).elim

/-- Finishing a drawing instruction leaves the registers alone (R175). -/
theorem finishDraw_x {r : DrawResult} {s t : State} (h : finishDraw r s = .next t) : t.x = s.x := by
  unfold finishDraw at h
  split at h <;> cases h <;> rfl

/-- A drawing instruction performs the word writes it asks for and finishes (R175 to R180). -/
theorem exec_draws {i : Instr} (hi : i.draws = true) (s : State) :
    exec i s = finishDraw (performWrites s.plat (wordWritesOf i s) s.mem) s := by
  cases i with
  | pixel rs rt rd => simp only [exec, execPixel, pixelWrite_eq, wordWritesOf]
  | fillall rs => simp only [exec, execFillall, fillAll_eq, wordWritesOf]
  | fillrow rs rt => simp only [exec, execFillrow, fillRow_eq, wordWritesOf]
  | fillcol rs rt => simp only [exec, execFillcol, fillCol_eq, wordWritesOf]
  | sprite rs => simp only [exec, execSprite, drawSprite_eq, wordWritesOf]
  | _ => cases hi

theorem branchIf_effects {i : Instr} {taken : Bool} {imm : Half} {s t : State} (h : branchIf taken imm s = .next t) :
    Effects i s t := by
  cases taken with
  | true => cases h; exact .of_outcome fun a ha => .inl ⟨imm, by cases ha; rfl⟩
  | false => cases h; exact .of_outcome nofun

theorem execJmp_effects {ref : Half} {s t : State} (h : execJmp ref s = .next t) : Effects (.jmp ref) s t := by
  unfold execJmp at h
  cases hr : s.symResolve ref with
  | some a => rw [hr] at h; cases h; exact .of_outcome fun b hb => .inr ⟨ref, rfl, by cases hb; exact hr⟩
  | none => rw [hr] at h; cases h; exact .of_outcome nofun

theorem printString_effects {i : Instr} (hi : i = .syscall ∨ ∃ ref, i = .pstr ref) {a : Word} {s t : State}
    (h : printString a s = .next t) : Effects i s t := by
  rcases printString_cases a s with ⟨bs, -, hp⟩ | ⟨bs, bad, -, hp⟩ | ⟨hp, -⟩
  · rw [hp] at h; cases h; exact .of_print hi s bs nofun
  · rw [hp] at h; cases h; exact .of_print hi s bs nofun
  · rw [hp] at h; cases h

theorem execPstr_effects {ref : Half} {s t : State} (h : execPstr ref s = .next t) : Effects (.pstr ref) s t := by
  unfold execPstr at h
  cases hr : s.symResolve ref with
  | some a => rw [hr] at h; exact printString_effects (.inr ⟨ref, rfl⟩) h
  | none => rw [hr] at h; cases h; exact .of_outcome nofun

theorem execSyscall_effects {s t : State} (h : execSyscall s = .next t) : Effects .syscall s t := by
  unfold execSyscall at h
  dsimp only at h
  split at h
  · cases h; exact .of_print (.inl rfl) s _ nofun
  split at h
  · exact printString_effects (.inl rfl) h
  split at h
  · cases h; exact .of_outcome nofun
  · cases h; exact .of_outcome nofun

/-- Every transaction has the effects of its instruction's family and no other. -/
theorem exec_effects {i : Instr} {s t : State} (h : exec i s = .next t) : Effects i s t := by
  by_cases ha : i.isArith = true
  · obtain ⟨u, hu, hregs, hout⟩ := exec_arith ha s
    cases h.symm.trans hu
    exact .of_arith ha hregs hout
  by_cases hd : i.draws = true
  · obtain ⟨u, hu, hpaint⟩ := exec_paints hd s
    cases h.symm.trans hu
    exact .of_draws hd (finishDraw_x (exec_draws hd s ▸ h)) hpaint
  cases i with
  | bpos | bneg | beq => exact branchIf_effects h
  | jmp ref => exact execJmp_effects h
  | pstr ref => exact execPstr_effects h
  | syscall => exact execSyscall_effects h
  | addi | subi | maxmag | avg | xor | cmp3 | clamp | modnorm | sgnc | bidx | sumbank | drain | lui | ori =>
    exact absurd rfl ha
  | pixel | fillall | fillrow | fillcol | sprite => exact absurd rfl hd

/-- Settles O25: each clause is one of the effects a transaction can have. -/
theorem eachFamilyHasOnlyItsEffects : Obligations.EachFamilyHasOnlyItsEffects := by
  intro i s t h
  obtain ⟨⟨-, -, hplat⟩, hregs, -, ⟨ws, -, hmem, hws⟩, ⟨bs, hout, hbs⟩, -⟩ := exec_effects h
  refine ⟨fun ha => readReg_congr (hregs ha) hplat, fun hd => ?_, fun hs hp => ?_, bs, hout⟩
  · rw [hmem, hws hd, writeWords_nil]
  · rw [hout, hbs hs hp, List.append_nil]

/-! ### What one step makes of it -/

/-- The dispatch of a matched word is its instruction's transaction (R234 (2)). -/
theorem dispatch_of_ok {iw : Word} {i : Instr} (hd : decode iw = .ok i) (s : State) : dispatch iw s = exec i s := by
  rw [dispatch, hd]

/-- The dispatch of an unmatched word fails with NoMatch (R78). -/
theorem dispatch_of_noMatch {iw w : Word} (hd : decode iw = .error (.noMatch w)) (s : State) :
    dispatch iw s = .next (s.raise .noMatch w) := by
  rw [dispatch, hd]

/-- `step_next_cases` at the level of the dispatch, whose transaction leaves the driver's fields alone (R23, R34, R36). -/
theorem step_next_dispatch {s t : State} (h : step s = .next t) :
    s.status = .running ∧
      ((s.fetch = none ∧ t = s.stopFailed .fetchError s.pc) ∨
        ∃ iw u, s.fetch = some iw ∧ dispatch iw s = .next u ∧ SameDriver s u ∧ t = u.applyOutcome) := by
  obtain ⟨hs, -, hfetch | ⟨iw, hf, ⟨w, hd, ht⟩ | ⟨i, u, hd, hx, ht⟩⟩⟩ := step_next_cases h
  · exact ⟨hs, .inl hfetch⟩
  · exact ⟨hs, .inr ⟨iw, _, hf, dispatch_of_noMatch hd s, ⟨rfl, rfl, rfl⟩, ht⟩⟩
  · exact ⟨hs, .inr ⟨iw, u, hf, (dispatch_of_ok hd s).trans hx, (exec_effects hx).driver, ht⟩⟩

/-- Settles O20: a failed fetch, a transaction and the driver's own part all leave the platform alone. -/
theorem platformNeverChanges : Obligations.PlatformNeverChanges := by
  intro s t h
  obtain ⟨-, ⟨-, rfl⟩ | ⟨iw, u, -, -, ⟨-, -, hplat⟩, rfl⟩⟩ := step_next_dispatch h
  · exact stopFailed_plat ..
  · rw [applyOutcome_plat, hplat]

/-- The driver stops a running machine as Terminated on `Terminate` only (R34). -/
theorem applyOutcome_terminated_iff {u : State} (hu : u.status = .running) :
    u.applyOutcome.status = .terminated ↔ u.outcome = some .terminate := by
  unfold State.applyOutcome
  rcases u.outcome with _ | _ | _ | _ | _ <;> simp [hu]

/-- The driver stops a running machine as Failed on `Fail` only, with the same kind and info (R34). -/
theorem applyOutcome_failed_iff {u : State} (hu : u.status = .running) (kind : FailKind) (info : Word) :
    u.applyOutcome.status = .failed kind info ↔ u.outcome = some (.fail kind info) := by
  unfold State.applyOutcome
  rcases u.outcome with _ | _ | _ | _ | _ <;> simp [hu]

/-- Settles O13: the launch is Running, a step's status comes from the fetch or from the outcome, and only a running
machine steps. -/
theorem statusFollowsTheOutcomes : Obligations.StatusFollowsTheOutcomes := by
  refine ⟨fun _ _ _ => rfl, fun s t h => ?_, fun s hs t h => hs (step_next_cases h).1⟩
  obtain ⟨hs, ⟨hf, rfl⟩ | ⟨iw, u, hf, hd, ⟨-, hstatus, -⟩, rfl⟩⟩ := step_next_dispatch h
  · simp [hf, eq_comm]
  · have hu : u.status = .running := hstatus.trans hs
    simp [applyOutcome_terminated_iff hu, applyOutcome_failed_iff hu, hf, hd]

/-! ### The invariant -/

/-- The invariant speaks of registers, memory and platform, and of the outcome being consumed. -/
theorem inv_of_same {s t : State} (h : s.Inv) (hx : t.x = s.x) (hm : t.mem = s.mem) (hp : t.plat = s.plat)
    (ho : t.outcome = none) : t.Inv := by
  obtain ⟨hwf, hin, -, h0⟩ := h
  unfold State.Inv
  rw [hx, hm, hp]
  exact ⟨hwf, hin, ho, h0⟩

/-- A transaction with its outcome applied keeps the invariant: what it writes to memory are valid words, and the register
port keeps a hard-wired register 0. -/
theorem Effects.inv_applyOutcome {i : Instr} {s u : State} (he : Effects i s u) (h : s.Inv) : u.applyOutcome.Inv := by
  obtain ⟨hwf, hin, -, h0⟩ := h
  obtain ⟨⟨-, -, hplat⟩, -, hreg0, ⟨ws, hvalid, hmem, -⟩, -, -⟩ := he
  unfold State.Inv
  rw [applyOutcome_mem, applyOutcome_plat, applyOutcome_x, hmem, hplat]
  exact ⟨wf_writeWords hvalid hwf, inside_writeWords hvalid hin, applyOutcome_outcome u,
    fun hz => (hreg0 hz).trans (h0 hz)⟩

/-- Settles O18: a failed fetch and an unmatched word change none of what the invariant speaks of, and an instruction
keeps it by its effects. -/
theorem everyStepKeepsTheInvariant : Obligations.EveryStepKeepsTheInvariant := by
  intro s t hinv h
  obtain ⟨-, -, ⟨-, rfl⟩ | ⟨iw, -, ⟨w, -, rfl⟩ | ⟨i, u, -, hx, rfl⟩⟩⟩ := step_next_cases h
  · exact inv_of_same hinv rfl rfl rfl rfl
  · exact inv_of_same hinv rfl rfl rfl rfl
  · exact (exec_effects hx).inv_applyOutcome hinv

/-! ### The alignment of the pc -/

/-- A branch at an aligned pc goes to an aligned address: the 16-bit field counts words (R141). -/
theorem branchTarget_aligned {pc : Word} (h : u32 pc % 4 = 0) (imm : Half) : u32 (branchTarget pc imm) % 4 = 0 := by
  unfold branchTarget wrap32
  generalize s32 (sext32 imm) = n
  unfold u32 at *
  rw [BitVec.toNat_ofInt]
  omega

theorem add_four_aligned {pc : Word} (h : u32 pc % 4 = 0) : u32 (wrap32 (u32 pc + 4)) % 4 = 0 := by
  rw [wrap32_u32_four]
  unfold u32 at *
  rw [BitVec.toNat_add, BitVec.toNat_ofNat]
  omega

/-- Applying an outcome keeps the pc aligned when a requested transfer goes to an aligned address (R24, R234). -/
theorem pcAligned_applyOutcome {u : State} (h : u.PcAligned)
    (ht : ∀ a, u.outcome = some (.transfer a) → u32 a % 4 = 0) : u.applyOutcome.PcAligned := by
  unfold State.applyOutcome
  rcases ho : u.outcome with _ | _ | a | _ | _
  · exact h
  · exact add_four_aligned h
  · exact ht a ho
  · exact h
  · exact h

theorem lookupKey_of_fetch {s : State} {iw : Word} (h : s.fetch = some iw) : lookupKey s.pc s.plat.imem = some iw := by
  unfold State.fetch at h
  split at h
  · exact h
  · cases h

/-- Settles O22: the pc advances by 4, or goes to a branch's target or to a JMP label of the program. -/
theorem alignedJumpLabelsKeepThePcAligned : Obligations.AlignedJumpLabelsKeepThePcAligned := by
  intro s t hjumps hpc h
  refine ⟨by rwa [platformNeverChanges s t h], ?_⟩
  obtain ⟨-, -, ⟨-, rfl⟩ | ⟨iw, hf, ⟨w, -, rfl⟩ | ⟨i, u, hd, hx, rfl⟩⟩⟩ := step_next_cases h
  · exact hpc
  · exact hpc
  · obtain ⟨⟨hsame, -, -⟩, -, -, -, -, htransfer⟩ := exec_effects hx
    refine pcAligned_applyOutcome (by rwa [State.PcAligned, hsame]) fun a ha => ?_
    rcases htransfer a ha with ⟨imm, rfl⟩ | ⟨ref, rfl, hsym⟩
    · exact branchTarget_aligned hpc imm
    · exact hjumps s.pc iw ref a (lookupKey_of_fetch hf) hd hsym

/-! ### Routines and the pc -/

/-- The state at another pc. -/
def State.atPc (s : State) (p : Word) : State := { s with pc := p }

/-- The answer of a transaction, its next state at another pc. -/
def answerAtPc (p : Word) : Host.Outcome State Fault Refusal → Host.Outcome State Fault Refusal
  | .next t => .next (t.atPc p)
  | .fault f => .fault f
  | .refused r => .refused r

theorem writeReg_atPc (s : State) (p : Word) (r : Reg) (v : Word) :
    (s.atPc p).writeReg r v = (s.writeReg r v).atPc p := by
  have hw : (s.atPc p).hardwired r = s.hardwired r := rfl
  unfold State.writeReg
  rw [hw]
  split <;> rfl

theorem finishReg_atPc (rd : Reg) (v : Word) (s : State) (p : Word) :
    finishReg rd v (s.atPc p) = answerAtPc p (finishReg rd v s) := by
  rw [finishReg, writeReg_atPc]
  rfl

theorem bankSum_atPc (js : List Nat) (s : State) (p : Word) : bankSum (s.atPc p) js = bankSum s js := by
  induction js with
  | nil => rfl
  | cons j js ih => rw [bankSum, bankSum, ih]; rfl

theorem drainLoop_atPc (js : List Nat) (s : State) (p : Word) (n : Nat) :
    drainLoop js (s.atPc p) n = ((drainLoop js s n).1.atPc p, (drainLoop js s n).2) := by
  induction js generalizing s n with
  | nil => rfl
  | cons j js ih =>
    have hp : (s.atPc p).plat = s.plat := rfl
    have hr (r : Reg) : (s.atPc p).readReg r = s.readReg r := rfl
    simp only [drainLoop, hp, hr, writeReg_atPc, ih]
    split <;> rfl

theorem printLoop_atPc (fuel : Nat) (a : Word) (s : State) (p : Word) :
    printLoop fuel a (s.atPc p) = answerAtPc p (printLoop fuel a s) := by
  induction fuel generalizing a s with
  | zero => rfl
  | succ fuel ih =>
    have hm : (s.atPc p).memRead a = s.memRead a := rfl
    rw [printLoop, printLoop, hm]
    cases s.memRead a with
    | none => rfl
    | some b =>
      dsimp only
      split
      · rfl
      · exact ih _ (s.emit [b])

theorem execPstr_atPc (ref : Half) (s : State) (p : Word) :
    execPstr ref (s.atPc p) = answerAtPc p (execPstr ref s) := by
  have hs : (s.atPc p).symResolve ref = s.symResolve ref := rfl
  rw [execPstr, execPstr, hs]
  cases s.symResolve ref with
  | some a => exact printLoop_atPc addressCount a s p
  | none => rfl

theorem execJmp_atPc (ref : Half) (s : State) (p : Word) : execJmp ref (s.atPc p) = answerAtPc p (execJmp ref s) := by
  have hs : (s.atPc p).symResolve ref = s.symResolve ref := rfl
  rw [execJmp, execJmp, hs]
  cases s.symResolve ref with
  | some a => rfl
  | none => rfl

theorem execSyscall_atPc (s : State) (p : Word) : execSyscall (s.atPc p) = answerAtPc p (execSyscall s) := by
  have hp : (s.atPc p).plat = s.plat := rfl
  have hr (r : Reg) : (s.atPc p).readReg r = s.readReg r := rfl
  simp only [execSyscall, hp, hr]
  split
  · rfl
  split
  · exact printLoop_atPc addressCount _ s p
  split
  · rfl
  · rfl

/-- The word writes an instruction asks for do not depend on the pc (R176 to R180). -/
theorem wordWritesOf_atPc (i : Instr) (s : State) (p : Word) : wordWritesOf i (s.atPc p) = wordWritesOf i s := by
  cases i <;> rfl

theorem finishDraw_atPc (r : DrawResult) (s : State) (p : Word) :
    finishDraw r (s.atPc p) = answerAtPc p (finishDraw r s) := by
  unfold finishDraw
  cases r.failed with
  | none => rfl
  | some a => rfl

/-- Every routine but a relative branch's answers the same at another pc (R23, R141). -/
theorem exec_atPc {i : Instr} (hb : ∀ rs imm, i ≠ .bpos rs imm ∧ i ≠ .bneg rs imm) (he : ∀ rs rt imm, i ≠ .beq rs rt imm)
    (s : State) (p : Word) : exec i (s.atPc p) = answerAtPc p (exec i s) := by
  by_cases hd : i.draws = true
  · rw [exec_draws hd, exec_draws hd, wordWritesOf_atPc]
    exact finishDraw_atPc _ s p
  cases i with
  | pixel | fillall | fillrow | fillcol | sprite => exact absurd rfl hd
  | bpos rs imm => exact absurd rfl (hb rs imm).1
  | bneg rs imm => exact absurd rfl (hb rs imm).2
  | beq rs rt imm => exact absurd rfl (he rs rt imm)
  | sumbank rd =>
    simp only [exec, execSumbank, bankSum_atPc]
    exact finishReg_atPc rd _ s p
  | drain rd =>
    simp only [exec, execDrain, drainLoop_atPc]
    exact finishReg_atPc rd _ (drainLoop bankIndices s 0).1 p
  | jmp ref => exact execJmp_atPc ref s p
  | pstr ref => exact execPstr_atPc ref s p
  | syscall => exact execSyscall_atPc s p
  | addi rd | subi rd | lui rd | ori rd => exact finishReg_atPc rd _ s p
  | maxmag rd | avg rd | xor rd | cmp3 rd | bidx rd => exact finishReg_atPc rd _ s p
  | clamp rd | modnorm rd | sgnc rd => exact finishReg_atPc rd _ s p

/-- Settles O16: the driver's fields are no effect of a transaction, and every routine but a relative branch's answers the
same at another pc. -/
theorem routinesNeverTouchTheDriver : Obligations.RoutinesNeverTouchTheDriver := by
  refine ⟨fun i s t h => (exec_effects h).driver, fun i s p hb he => ?_⟩
  refine (exec_atPc hb he s p).trans ?_
  cases exec i s with
  | next t => rfl
  | fault f => rfl
  | refused r => rfl

end Sys2Proof.Machine
end

section
/-! Proofs for `20_memory.md`: the memory port by the two cases of a read and of a write, and the region that every word
written lies in. -/

namespace Sys2Proof.Machine

open Sys2Proof

/-! ### The memory port -/

/-- A word is valid when it is aligned and its four bytes are valid (R40). -/
theorem validWord_iff (p : Platform) (a : Nat) :
    validWord p a = true ↔ a % 4 = 0 ∧ ∀ k, k < 4 → validByte p (a + k) = true := by
  simp only [validWord, Bool.and_eq_true, beq_iff_eq]
  constructor
  · rintro ⟨⟨⟨⟨ha, h0⟩, h1⟩, h2⟩, h3⟩
    refine ⟨ha, fun k hk => ?_⟩
    obtain rfl | rfl | rfl | rfl : k = 0 ∨ k = 1 ∨ k = 2 ∨ k = 3 := by omega
    · exact h0
    · exact h1
    · exact h2
    · exact h3
  · rintro ⟨ha, h⟩
    exact ⟨⟨⟨⟨ha, h 0 (by decide)⟩, h 1 (by decide)⟩, h 2 (by decide)⟩, h 3 (by decide)⟩

theorem memRead_of_valid {s : State} {a : Word} (h : validByte s.plat (u32 a) = true) :
    s.memRead a = some (s.mem.read (u32 a)) :=
  if_pos h

theorem memRead_of_invalid {s : State} {a : Word} (h : validByte s.plat (u32 a) = false) : s.memRead a = none :=
  if_neg (ne_true_of_eq_false h)

theorem memWrite_of_valid {p : Platform} {a : Word} (h : validWord p (u32 a) = true) (v : Word) (m : Memory) :
    memWrite p a v m = ⟨m.writeWord (u32 a) v, none⟩ :=
  if_pos h

theorem memWrite_of_invalid {p : Platform} {a : Word} (h : ¬ validWord p (u32 a) = true) (v : Word) (m : Memory) :
    memWrite p a v m = ⟨m, some a⟩ :=
  if_neg h

/-- Settles O60: a write at a valid word is the word write of memory, whose bytes are known one by one. -/
theorem memoryPortReadsWhatWasWritten : Obligations.MemoryPortReadsWhatWasWritten := by
  refine ⟨fun s a => ⟨memRead_of_valid, memRead_of_invalid⟩, fun p a v m hm => ?_⟩
  rw [← validWord_iff]
  refine ⟨fun hv => ?_, fun hv => memWrite_of_invalid hv v m⟩
  have hlt : u32 a + 3 < addressCount := (validWord_bounds hv).2
  have hbyte {i : Nat} (hi : i < 4) : (m.writeWord (u32 a) v).read (u32 a + i) = byteOf v i :=
    read_writeWord_byte hm hlt v hi
  exact ⟨_, memWrite_of_valid hv v m, wf_writeWord hm hlt v, hbyte (i := 0) (by decide), hbyte (i := 1) (by decide),
    hbyte (i := 2) (by decide), hbyte (i := 3) (by decide), fun _ => read_writeWord_ne m v⟩

/-! ### Only the framebuffer region is written -/

theorem mem_gridWrites_of_mem_pixelWrites {c : Config} {x y colour : Word} {w : Word × Word}
    (hw : w ∈ pixelWrites c x y colour) :
    w ∈ gridWrites c w.2 := by
  unfold pixelWrites at hw
  split at hw
  next hin =>
    obtain ⟨⟨-, hx⟩, -, hy⟩ := (inBounds_iff x y).1 hin
    rw [List.mem_singleton.1 hw]
    exact mem_gridWrites.2 ⟨_, _, s32_toNat_lt hx, s32_toNat_lt hy, rfl⟩
  next => cases hw

theorem mem_gridWrites_of_mem_rowWrites {c : Config} {y colour : Word} {w : Word × Word}
    (hw : w ∈ rowWrites c y colour) :
    w ∈ gridWrites c w.2 := by
  unfold rowWrites at hw
  split at hw
  next hy =>
    obtain ⟨x, hx, rfl⟩ := List.mem_map.1 hw
    exact mem_gridWrites.2 ⟨x, _, List.mem_range.1 hx, s32_toNat_lt hy.2, rfl⟩
  next => cases hw

theorem mem_gridWrites_of_mem_colWrites {c : Config} {x colour : Word} {w : Word × Word}
    (hw : w ∈ colWrites c x colour) :
    w ∈ gridWrites c w.2 := by
  unfold colWrites at hw
  split at hw
  next hx =>
    obtain ⟨y, hy, rfl⟩ := List.mem_map.1 hw
    exact mem_gridWrites.2 ⟨_, y, s32_toNat_lt hx.2, List.mem_range.1 hy, rfl⟩
  next => cases hw

/-- Every word an instruction asks to write is a word of the grid, in its colour (R57). -/
theorem mem_gridWrites_of_mem_wordWritesOf {i : Instr} {s : State} {w : Word × Word} (hw : w ∈ wordWritesOf i s) :
    w ∈ gridWrites s.plat.cfg w.2 := by
  cases i with
  | pixel rs rt rd => exact mem_gridWrites_of_mem_pixelWrites hw
  | fillall rs =>
    obtain ⟨x, y, hx, hy, rfl⟩ := mem_gridWrites.1 hw
    exact hw
  | fillrow rs rt => exact mem_gridWrites_of_mem_rowWrites hw
  | fillcol rs rt => exact mem_gridWrites_of_mem_colWrites hw
  | sprite rs =>
    obtain ⟨e, -, he⟩ := List.mem_flatMap.1 hw
    exact mem_gridWrites_of_mem_pixelWrites he
  | _ => cases hw

/-- Writing words of the grid leaves every byte outside the framebuffer region alone (R48, R171). -/
theorem read_writeWords_outside_framebuffer {c : Config} (hc : c.fbBaseOk = true) {ws : List (Word × Word)}
    (hws : ∀ w ∈ ws, w ∈ gridWrites c w.2) {a : Nat} (ha : a < u32 c.fbBase ∨ u32 c.fbBase + 0x100000 ≤ a)
    (m : Memory) : (m.writeWords ws).read a = m.read a := by
  refine read_writeWords_ne (fun w hw => ?_) m
  have hreg (hin : u32 w.1 ≤ a ∧ a < u32 w.1 + 4) : u32 c.fbBase ≤ a ∧ a < u32 c.fbBase + 0x100000 :=
    (covered_iff hc w.2 a).1 ⟨w, hws w hw, hin⟩
  omega

/-- What a transaction makes of memory: a prefix of the words its instruction asks to write (R43, R56). -/
theorem exec_writes_prefix {i : Instr} {s t : State} (h : exec i s = .next t) :
    ∃ done, done <+: wordWritesOf i s ∧ t.mem = s.mem.writeWords done := by
  by_cases hd : i.draws = true
  · obtain ⟨u, hu, -, -, -, done, rest, hws, -, hmem, -⟩ := exec_paints hd s
    cases h.symm.trans hu
    exact ⟨done, ⟨rest, hws.symm⟩, hmem⟩
  · obtain ⟨-, hmem, -, -⟩ := eachFamilyHasOnlyItsEffects i s t h
    exact ⟨[], List.nil_prefix, hmem (by simpa using hd)⟩

/-- Settles O23: a failed fetch and an unmatched word leave memory alone, and an instruction writes words of
the grid. -/
theorem onlyFramebufferBytesChange : Obligations.OnlyFramebufferBytesChange := by
  intro s t h a ha
  obtain ⟨-, hc, ⟨-, rfl⟩ | ⟨iw, -, ⟨w, -, rfl⟩ | ⟨i, u, -, hx, rfl⟩⟩⟩ := step_next_cases h
  · rw [stopFailed_mem]
  · rw [applyOutcome_mem, raise_mem]
  · obtain ⟨done, hdone, hmem⟩ := exec_writes_prefix hx
    rw [applyOutcome_mem, hmem]
    exact read_writeWords_outside_framebuffer (fbBaseOk_of_wellFormed hc)
      (fun w hw => mem_gridWrites_of_mem_wordWritesOf (hdone.subset hw)) ha s.mem

end Sys2Proof.Machine
end

section
/-! Proofs for `30_encoding.md`: the matcher and the decoder as properties of the catalog's entries, that encoder and decoder
undo each other, the construction check, and the assembler's idioms for a constant and for a branch field. -/

namespace Sys2Proof

open Sys2Proof.Machine

/-! ### The matcher and the decoder -/

/-- R76: mask and compare. -/
theorem accepts_iff (e : Entry) (w : Word) : e.accepts w = true ↔ w &&& e.mask = e.matchBits := beq_iff_eq

/-- A relation holds of every two entries of a catalog, in order, exactly when it holds of those at rising indices. -/
theorem pairwise_iff_getElem? {R : Entry → Entry → Prop} (cat : List Entry) :
    cat.Pairwise R ↔ ∀ (j k : Nat) (e f : Entry), j < k → cat[j]? = some e → cat[k]? = some f → R e f := by
  rw [List.pairwise_iff_getElem]
  constructor
  · intro h j k e f hjk he hf
    obtain ⟨hj, rfl⟩ := List.getElem?_eq_some_iff.1 he
    obtain ⟨hk, rfl⟩ := List.getElem?_eq_some_iff.1 hf
    exact h j k hj hk hjk
  · exact fun h j k hj hk hjk => h j k _ _ hjk (List.getElem?_eq_getElem hj) (List.getElem?_eq_getElem hk)

/-- Two entries of the catalog that accept a common word stand at the same index (R81). -/
theorem index_unique {w : Word} {j k : Nat} {e f : Entry} (he : catalog[j]? = some e) (hf : catalog[k]? = some f)
    (hwe : e.accepts w = true) (hwf : f.accepts w = true) : j = k := by
  have apart := (pairwise_iff_getElem? catalog).1 catalog_conflicts
  rcases Nat.lt_trichotomy j k with h | h | h
  · exact absurd (accepts_conflict hwe hwf) (apart j k e f h he hf)
  · exact h
  · exact absurd (accepts_conflict hwf hwe) (apart k j f e h hf he)

/-- The first entry that accepts is the one at the matcher's index (R77). -/
theorem find?_accepts_eq (w : Word) :
    catalog.find? (·.accepts w) = (catalogIndex w).bind fun k => catalog[k]? := by
  rw [catalogIndex, List.find?_eq_map_findFinIdx?_getElem, List.findIdx?_eq_map_findFinIdx?_val]
  cases List.findFinIdx? (·.accepts w) catalog with
  | none => rfl
  | some k => simp

/-- The matcher's index is the least index whose entry accepts (R77). -/
theorem catalogIndex_eq_some_iff (w : Word) (k : Nat) :
    catalogIndex w = some k ↔ (∃ e, catalog[k]? = some e ∧ e.accepts w = true) ∧
      ∀ j e, j < k → catalog[j]? = some e → ¬ e.accepts w = true := by
  rw [catalogIndex, List.findIdx?_eq_some_iff_getElem]
  constructor
  · rintro ⟨hk, hacc, hleast⟩
    refine ⟨⟨_, List.getElem?_eq_getElem hk, hacc⟩, fun j e hj he => ?_⟩
    obtain ⟨-, rfl⟩ := List.getElem?_eq_some_iff.1 he
    exact hleast j hj
  · rintro ⟨⟨e, he, hacc⟩, hleast⟩
    obtain ⟨hk, rfl⟩ := List.getElem?_eq_some_iff.1 he
    exact ⟨hk, hacc, fun j hj => hleast j _ hj (List.getElem?_eq_getElem (Nat.lt_trans hj hk))⟩

/-- The decoder answers what the resolver of the entry at the matcher's index makes of the word (R77, R90). -/
theorem decode_eq_ok_iff (w : Word) (i : Instr) :
    decode w = .ok i ↔ ∃ k e, catalogIndex w = some k ∧ catalog[k]? = some e ∧ e.occurrence w = i := by
  have hfind : decode w = .ok i ↔ ∃ e, catalog.find? (·.accepts w) = some e ∧ e.occurrence w = i := by
    unfold decode
    cases catalog.find? (·.accepts w) <;> simp
  rw [hfind]
  constructor
  · rintro ⟨e, he, hocc⟩
    rw [find?_accepts_eq, Option.bind_eq_some_iff] at he
    obtain ⟨k, hk, he⟩ := he
    exact ⟨k, e, hk, he, hocc⟩
  · rintro ⟨k, e, hk, he, hocc⟩
    exact ⟨e, by rw [find?_accepts_eq, hk, Option.bind_some, he], hocc⟩

/-- Only one entry can accept a word, so the one that does is the one the decoder resolves with (R77, R81). -/
theorem decode_of_accepts {w : Word} {k : Nat} {e : Entry} (he : catalog[k]? = some e) (hw : e.accepts w = true) :
    decode w = .ok (e.occurrence w) := by
  have hleast : catalogIndex w = some k := (catalogIndex_eq_some_iff w k).2
    ⟨⟨e, he, hw⟩, fun j f hj hf hwf => Nat.ne_of_lt hj (index_unique hf he hwf hw)⟩
  exact (decode_eq_ok_iff w _).2 ⟨k, e, hleast, he, rfl⟩

/-- A word that decodes is accepted by the entry whose resolver made the instruction (R76, R90). -/
theorem accepts_of_decode {w : Word} {i : Instr} (h : decode w = .ok i) :
    ∃ e ∈ catalog, e.accepts w = true ∧ e.occurrence w = i := by
  obtain ⟨k, e, hk, he, hi⟩ := (decode_eq_ok_iff w i).1 h
  obtain ⟨⟨f, hf, hw⟩, -⟩ := (catalogIndex_eq_some_iff w k).1 hk
  cases he.symm.trans hf
  exact ⟨e, List.mem_of_getElem? he, hw, hi⟩

/-- The decoder reports NoMatch of the word itself exactly when no entry accepts it (R78). -/
theorem decode_eq_noMatch_iff (w : Word) :
    decode w = .error (.noMatch w) ↔ ∀ e ∈ catalog, ¬ e.accepts w = true := by
  rw [← List.find?_eq_none]
  unfold decode
  cases catalog.find? (·.accepts w) <;> simp

/-- Decoding is total (R78). -/
theorem decode_total (w : Word) : (∃ i, decode w = .ok i) ∨ decode w = .error (.noMatch w) := by
  unfold decode
  cases catalog.find? (·.accepts w) with
  | some e => exact .inl ⟨_, rfl⟩
  | none => exact .inr rfl

/-- Settles O4: two different entries differ in a literal bit they have in common. -/
theorem atMostOneEntryMatches : Obligations.AtMostOneEntryMatches := by
  intro w j k e f he hf hwe hwf
  exact index_unique he hf ((accepts_iff e w).2 hwe) ((accepts_iff f w).2 hwf)

/-- Settles O5: the mask-and-compare test, the least index that passes it, and the resolver of that entry. -/
theorem matcherSelectsTheFirstMatch : Obligations.MatcherSelectsTheFirstMatch := by
  refine ⟨accepts_iff, fun w k => ?_, decode_eq_ok_iff⟩
  simp only [catalogIndex_eq_some_iff, accepts_iff, ne_eq]

/-- Settles O12: the decoder's two answers, and the dispatch of the second. -/
theorem unmatchedWordFailsWithNoMatch : Obligations.UnmatchedWordFailsWithNoMatch := by
  intro w
  have hno : decode w = .error (.noMatch w) ↔ ∀ e ∈ catalog, w &&& e.mask ≠ e.matchBits := by
    simp only [decode_eq_noMatch_iff, accepts_iff, ne_eq]
  exact ⟨decode_total w, hno, fun h s => dispatch_of_noMatch (hno.2 h) s⟩

/-! ### The encoder and the decoder -/

/-- `Laws.OwnEntry` for every instruction: its own entry accepts its word and resolves it to the instruction (R80, R96). -/
theorem ownEntry (i : Instr) : Laws.OwnEntry.Statement i := by
  open Laws.OwnEntry in
  cases i with
  | addi rt rs imm => exact addi rt rs imm
  | subi rt rs imm => exact subi rt rs imm
  | maxmag rd rs rt => exact maxmag rd rs rt
  | avg rd rs rt => exact avg rd rs rt
  | xor rd rs rt => exact xor rd rs rt
  | cmp3 rd rs rt => exact cmp3 rd rs rt
  | clamp rd rs => exact clamp rd rs
  | modnorm rd rs => exact modnorm rd rs
  | sgnc rd rs => exact sgnc rd rs
  | bidx rd rs rt => exact bidx rd rs rt
  | sumbank rd => exact sumbank rd
  | drain rd => exact drain rd
  | lui rt rs imm => exact lui rt rs imm
  | ori rt rs imm => exact ori rt rs imm
  | bpos rs imm => exact bpos rs imm
  | bneg rs imm => exact bneg rs imm
  | beq rs rt imm => exact beq rs rt imm
  | jmp ref => exact jmp ref
  | pstr ref => exact pstr ref
  | syscall => exact syscall
  | pixel rs rt rd => exact pixel rs rt rd
  | fillall rs => exact fillall rs
  | fillrow rs rt => exact fillrow rs rt
  | fillcol rs rt => exact fillcol rs rt
  | sprite rs => exact sprite rs

/-- Settles O2: the word is accepted by its own entry, and by no other. -/
theorem encodeThenDecodeIsIdentity : Obligations.EncodeThenDecodeIsIdentity := by
  intro i
  obtain ⟨e, he, haccepts, hocc⟩ := ownEntry i
  rw [decode_of_accepts he haccepts, hocc]

/-- A field extracted from a word and placed where it stood is the word's bits there (R91, R96). -/
theorem extract_shiftLeft (w : Word) (lo n : Nat) :
    ((w.extractLsb' lo n).zeroExtend 32 <<< lo : Word) = w &&& ((BitVec.allOnes n).zeroExtend 32 <<< lo) := by
  apply BitVec.eq_of_getLsbD_eq
  intro i hi
  by_cases h : i < lo
  · simp [h]
  · simp [h, hi, show lo + (i - lo) = i by omega, Bool.and_comm]

theorem placeReg_extract (w : Word) (lo : Nat) :
    placeReg (w.extractLsb' lo 5).toFin lo = w &&& ((BitVec.allOnes 5).zeroExtend 32 <<< lo) := by
  have h : BitVec.ofNat 32 (w.extractLsb' lo 5).toFin.val = (w.extractLsb' lo 5).zeroExtend 32 :=
    BitVec.eq_of_toNat_eq (by simp)
  rw [placeReg, h, extract_shiftLeft]

theorem placeReg_fieldRs (w : Word) : placeReg (fieldRs w) 21 = w &&& 0x03E00000#32 :=
  placeReg_extract w 21

theorem placeReg_fieldRt (w : Word) : placeReg (fieldRt w) 16 = w &&& 0x001F0000#32 :=
  placeReg_extract w 16

theorem placeReg_fieldRd (w : Word) : placeReg (fieldRd w) 11 = w &&& 0x0000F800#32 :=
  placeReg_extract w 11

theorem zeroExtend_fieldImm (w : Word) : (fieldImm w).zeroExtend 32 = w &&& 0x0000FFFF#32 :=
  (BitVec.shiftLeft_zero _).symm.trans (extract_shiftLeft w 0 16)

/-- A register field the pattern does not have contributes none of the word's bits (R96). -/
theorem placeReg_zero_eq_and (w : Word) (lo : Nat) : placeReg 0 lo = w &&& 0#32 := by
  rw [placeReg_zero, BitVec.and_zero]

theorem zeroExtend_zero_eq_and (w : Word) : (0 : Half).zeroExtend 32 = w &&& 0#32 := by
  rw [BitVec.and_zero]; rfl

/-- The word an entry's instruction is encoded as has the entry's literals and, everywhere else, the bits of the word it
was made of (R83, R97). Entry by entry, the placed fields are the word's bits under their masks, and these masks together
are the complement of the entry's mask. -/
theorem encode_occurrence : ∀ e ∈ catalog, ∀ w, encode (e.occurrence w) = e.matchBits ||| (w &&& ~~~e.mask) := by
  simp only [catalog, catalogArith, catalogControl, catalogDraw, List.cons_append, List.nil_append,
    List.forall_mem_cons, List.not_mem_nil, false_imp_iff, implies_true, and_true]
  and_intros
  all_goals
    intro w
    simp only [encode, entry, assembleWord, placeReg_fieldRs, placeReg_fieldRt, placeReg_fieldRd, zeroExtend_fieldImm,
      placeReg_zero_eq_and w, zeroExtend_zero_eq_and w, BitVec.or_assoc, ← BitVec.and_or_distrib_left]
    rfl

/-- Settles O3: a word that an entry accepts has the entry's literals, and its other bits are kept. -/
theorem decodeThenEncodeIsIdentity : Obligations.DecodeThenEncodeIsIdentity := by
  intro w i h
  obtain ⟨e, he, haccepts, rfl⟩ := accepts_of_decode h
  have hw : w &&& e.mask = e.matchBits := (accepts_iff e w).1 haccepts
  calc encode (e.occurrence w)
    _ = e.matchBits ||| (w &&& ~~~e.mask) := encode_occurrence e he w
    _ = w &&& (e.mask ||| ~~~e.mask) := by rw [← hw, BitVec.and_or_distrib_left]
    _ = w := by rw [BitVec.or_not_self, BitVec.and_allOnes]

/-! ### The table of R80 -/

/-- A table word that is an instruction's encoding is read as that instruction (R70, R96). -/
theorem decodeTableWord_of_encode {i : Instr} {nbits w : Nat} (h : encode i = tableWord nbits w) :
    decodeTableWord nbits w = some i := by
  rw [decodeTableWord, ← h, encodeThenDecodeIsIdentity i]

/-- A table word that no entry accepts is read as no instruction (R78). -/
theorem decodeTableWord_of_unmatched {nbits w : Nat} (h : ∀ e ∈ catalog, ¬ e.accepts (tableWord nbits w) = true) :
    decodeTableWord nbits w = none := by
  rw [decodeTableWord, (decode_eq_noMatch_iff _).2 h]

/-- Settles O1: each of the eleven words is the encoding of its instruction. -/
theorem catalogWordsDecodeAsWritten : Obligations.CatalogWordsDecodeAsWritten := by
  refine ⟨?_, ?_, ?_, ?_, ?_, ?_, ?_, ?_, ?_, ?_, ?_, decodeTableWord_of_unmatched (by decide +kernel)⟩
  all_goals exact decodeTableWord_of_encode (by decide)

/-- Settles O6, by evaluating the catalog. -/
theorem catalogHasTheTablesMasks : Obligations.CatalogHasTheTablesMasks :=
  ⟨by decide +kernel, by decide +kernel, by decide +kernel, by decide +kernel⟩

/-! ### Masks and matches (R75) -/

/-- Bit `i` of a pattern's bits is what the pattern's position `i` from the right says (R75). -/
theorem getLsbD_patternBits_reverse (f : PatChar → Bool) (q : Pattern) {i : Nat} (hi : i < 32) :
    (patternBits f q.reverse).getLsbD i = q[i]?.any f := by
  induction q generalizing i with
  | nil => rw [List.reverse_nil, patternBits, List.foldl_nil, BitVec.getLsbD_zero, List.getElem?_nil, Option.any_none]
  | cons c q ih =>
    have hsnoc : patternBits f (c :: q).reverse =
        (patternBits f q.reverse <<< 1) ||| (if f c then 1#32 else 0#32) := by
      rw [patternBits, List.reverse_cons, List.foldl_append]
      rfl
    rw [hsnoc, BitVec.getLsbD_or, BitVec.getLsbD_shiftLeft]
    cases i with
    | zero => cases hc : f c <;> simp [hc]
    | succ i =>
      rw [List.getElem?_cons_succ, ← ih (by omega)]
      cases f c <;> simp [hi]

/-- In a pattern of 32 positions, position `k` decides bit `31 - k` (R75). -/
theorem getLsbD_patternBits_sub (f : PatChar → Bool) {p : Pattern} {k : Nat} (hp : p.length = 32) (hk : k < 32) :
    (patternBits f p).getLsbD (31 - k) = true ↔ ∃ c, p[k]? = some c ∧ f c = true := by
  have hpos : p.reverse[31 - k]? = p[k]? := by
    rw [List.getElem?_reverse (by omega), hp, show 32 - 1 - (31 - k) = k by omega]
  have hbits := getLsbD_patternBits_reverse f p.reverse (i := 31 - k) (by omega)
  rw [List.reverse_reverse, hpos] at hbits
  rw [hbits]
  cases p[k]? <;> simp

theorem mask_bit_iff {p : Pattern} {k : Nat} (hp : p.length = 32) (hk : k < 32) :
    (Pattern.mask p).getLsbD (31 - k) = true ↔ ∃ b, p[k]? = some (.lit b) := by
  rw [Pattern.mask, getLsbD_patternBits_sub _ hp hk]
  constructor
  · rintro ⟨_ | _, hc, hf⟩
    · exact ⟨_, hc⟩
    all_goals cases hf
  · rintro ⟨b, hb⟩
    exact ⟨_, hb, rfl⟩

theorem matchBits_bit_iff {p : Pattern} {k : Nat} (hp : p.length = 32) (hk : k < 32) :
    (Pattern.matchBits p).getLsbD (31 - k) = true ↔ p[k]? = some (.lit true) := by
  rw [Pattern.matchBits, getLsbD_patternBits_sub _ hp hk]
  constructor
  · rintro ⟨_ | _, hc, hf⟩
    · cases hf
      exact hc
    all_goals cases hf
  · exact fun h => ⟨_, h, rfl⟩

/-- Every entry of the catalog is built with the constants of its pattern (R75). -/
theorem catalog_constants :
    ∀ e ∈ catalog, e.mask = Pattern.mask e.pattern ∧ e.matchBits = Pattern.matchBits e.pattern := by
  decide +kernel

/-! ### The construction check (R79) -/

/-- The positions `lo` to `hi - 1` of a pattern. -/
def segment (p : Pattern) (lo hi : Nat) : Pattern := (p.take hi).drop lo

theorem mem_segment_iff (p : Pattern) (lo hi : Nat) (c : PatChar) :
    c ∈ segment p lo hi ↔ ∃ k, (lo ≤ k ∧ k < hi) ∧ p[k]? = some c := by
  simp only [segment, List.mem_iff_getElem?, List.getElem?_drop, List.getElem?_take]
  constructor
  · rintro ⟨n, hn⟩
    by_cases hlt : lo + n < hi
    · exact ⟨lo + n, ⟨by omega, hlt⟩, by rwa [if_pos hlt] at hn⟩
    · rw [if_neg hlt] at hn
      cases hn
  · rintro ⟨k, ⟨hlo, hhi⟩, hk⟩
    exact ⟨k - lo, by rwa [Nat.add_sub_cancel' hlo, if_pos hhi]⟩

theorem length_segment {p : Pattern} {lo hi : Nat} (hhi : hi ≤ p.length) : (segment p lo hi).length = hi - lo := by
  rw [segment, List.length_drop, List.length_take, Nat.min_eq_left hhi]

/-- A letter that occurs in a range only is counted there. -/
theorem count_segment {p : Pattern} {c : PatChar} {lo hi : Nat} (hle : lo ≤ hi)
    (hin : ∀ k : Nat, p[k]? = some c → lo ≤ k ∧ k < hi) : (segment p lo hi).count c = p.count c := by
  have hleft : (p.take lo).count c = 0 := by
    refine List.count_eq_zero.2 fun hc => ?_
    obtain ⟨k, hk, hpk⟩ := List.mem_take_iff_getElem.1 hc
    have := hin k (List.getElem?_eq_some_iff.2 ⟨by omega, hpk⟩)
    omega
  have hright : (p.drop hi).count c = 0 := by
    refine List.count_eq_zero.2 fun hc => ?_
    obtain ⟨k, hk⟩ := List.mem_iff_getElem?.1 hc
    rw [List.getElem?_drop] at hk
    have := hin _ hk
    omega
  calc (segment p lo hi).count c
    _ = ((p.take hi).take lo).count c + (segment p lo hi).count c := by
      rw [List.take_take, Nat.min_eq_left hle, hleft, Nat.zero_add]
    _ = (p.take hi).count c + (p.drop hi).count c := by
      rw [segment, ← List.count_append, List.take_append_drop, hright, Nat.add_zero]
    _ = p.count c := by rw [← List.count_append, List.take_append_drop]

/-- A letter is absent or stands exactly in its range just when it stands nowhere else and is counted not at all or as
often as the range is long (R71, R79). -/
theorem absent_or_exact_iff {p : Pattern} {c : PatChar} {lo hi : Nat} (hle : lo ≤ hi) (hhi : hi ≤ p.length) :
    ((∀ k : Nat, p[k]? ≠ some c) ∨ ∀ k : Nat, p[k]? = some c ↔ lo ≤ k ∧ k < hi) ↔
      (∀ k : Nat, p[k]? = some c → lo ≤ k ∧ k < hi) ∧ fieldWhole p c (hi - lo) = true := by
  have hwhole : fieldWhole p c (hi - lo) = true ↔ c ∉ p ∨ p.count c = hi - lo := by
    rw [fieldWhole, Bool.or_eq_true, beq_iff_eq, beq_iff_eq, List.count_eq_zero]
  have habsent : c ∉ p ↔ ∀ k : Nat, p[k]? ≠ some c := by
    simp only [List.mem_iff_getElem?, not_exists, ne_eq]
  have hfull (hin : ∀ k : Nat, p[k]? = some c → lo ≤ k ∧ k < hi) :
      p.count c = hi - lo ↔ ∀ k : Nat, lo ≤ k ∧ k < hi → p[k]? = some c := by
    rw [← count_segment hle hin, ← length_segment (lo := lo) hhi, List.count_eq_length]
    constructor
    · intro h k hk
      have hlt : k < p.length := by omega
      have hpk := List.getElem?_eq_getElem hlt
      rw [hpk, h p[k] ((mem_segment_iff p lo hi _).2 ⟨k, hk, hpk⟩)]
    · intro h b hb
      obtain ⟨k, hk, hpk⟩ := (mem_segment_iff p lo hi b).1 hb
      exact Option.some.inj ((h k hk).symm.trans hpk)
  rw [hwhole, habsent]
  constructor
  · rintro (h | h)
    · exact ⟨fun k hk => absurd hk (h k), .inl h⟩
    · exact ⟨fun k => (h k).1, .inr ((hfull fun k => (h k).1).2 fun k => (h k).2)⟩
  · rintro ⟨hin, h | h⟩
    · exact .inl h
    · exact .inr fun k => ⟨hin k, (hfull hin).1 h k⟩

/-- The bit ranges of the variable fields, as positions of a pattern (R71). -/
def fieldRanges : List (PatChar × Nat × Nat) :=
  [(PatChar.s, 6, 11), (PatChar.t, 11, 16), (PatChar.d, 16, 21), (PatChar.i, 16, 32)]

/-- Every letter of a pattern of 32 positions is in its field's range. -/
theorem all_letterInRange_iff {p : Pattern} (hp : p.length = 32) :
    (p.zipIdx.all fun ck => letterInRange ck.2 ck.1) = true ↔
      ∀ z ∈ fieldRanges, ∀ k : Nat, p[k]? = some z.1 → z.2.1 ≤ k ∧ k < z.2.2 := by
  rw [List.all_eq_true]
  constructor
  · intro h z hz k hk
    have hlt : k < p.length := (List.getElem?_eq_some_iff.1 hk).1
    have hletter := h (z.1, k) (List.mk_mem_zipIdx_iff_getElem?.2 hk)
    simp only [fieldRanges, List.mem_cons, List.not_mem_nil, or_false] at hz
    rcases hz with rfl | rfl | rfl | rfl
    · exact of_decide_eq_true hletter
    · exact of_decide_eq_true hletter
    · exact of_decide_eq_true hletter
    · exact ⟨of_decide_eq_true hletter, hp ▸ hlt⟩
  · rintro h ⟨c, k⟩ hck
    have hk : p[k]? = some c := List.mk_mem_zipIdx_iff_getElem?.1 hck
    cases c with
    | lit b => rfl
    | s => exact decide_eq_true (h (.s, 6, 11) (by decide) k hk)
    | t => exact decide_eq_true (h (.t, 11, 16) (by decide) k hk)
    | d => exact decide_eq_true (h (.d, 16, 21) (by decide) k hk)
    | i => exact decide_eq_true (h (.i, 16, 32) (by decide) k hk).1

/-- What the check requires of an entry by itself (R79). -/
theorem entry_wellFormed_iff (e : Entry) :
    e.wellFormed = true ↔ e.pattern.length = 32 ∧ e.matchBits &&& ~~~e.mask = 0#32 ∧
      ∀ z ∈ fieldRanges, (∀ k : Nat, e.pattern[k]? ≠ some z.1) ∨
        ∀ k : Nat, e.pattern[k]? = some z.1 ↔ z.2.1 ≤ k ∧ k < z.2.2 := by
  have hwf : e.wellFormed = true ↔ e.pattern.length = 32 ∧ e.matchBits &&& ~~~e.mask = 0#32 ∧
      (e.pattern.zipIdx.all fun ck => letterInRange ck.2 ck.1) = true ∧
      ∀ z ∈ fieldRanges, fieldWhole e.pattern z.1 (z.2.2 - z.2.1) = true := by
    simp [Entry.wellFormed, fieldRanges, and_assoc]
  rw [hwf]
  refine and_congr_right fun hlen => and_congr_right fun _ => ?_
  rw [all_letterInRange_iff hlen]
  have hrange : ∀ z ∈ fieldRanges, z.2.1 ≤ z.2.2 ∧ z.2.2 ≤ 32 := by decide
  have hletter := fun z hz =>
    absent_or_exact_iff (p := e.pattern) (c := z.1) (hrange z hz).1 (hlen.symm ▸ (hrange z hz).2)
  constructor
  · exact fun ⟨hin, hwhole⟩ z hz => (hletter z hz).2 ⟨hin z hz, hwhole z hz⟩
  · exact fun h => ⟨fun z hz => ((hletter z hz).1 (h z hz)).1, fun z hz => ((hletter z hz).1 (h z hz)).2⟩

/-- Two entries that do not clash differ in mask or match, and in mnemonic (R79). -/
theorem not_clashes_iff (e f : Entry) :
    ¬ e.clashes f = true ↔ (e.mask, e.matchBits) ≠ (f.mask, f.matchBits) ∧ e.mnemonic ≠ f.mnemonic := by
  simp [Entry.clashes, not_or]

theorem findClash_eq_none_iff (e : Entry) (k : Nat) (fs : List Entry) :
    findClash e k fs = none ↔ ∀ f ∈ fs, ¬ e.clashes f = true := by
  induction fs generalizing k with
  | nil => simp [findClash]
  | cons f fs ih =>
    rw [findClash, List.forall_mem_cons, ← ih (k + 1)]
    by_cases h : e.clashes f = true <;> simp [h]

theorem getElem?_cons_sub {n k : Nat} (h : n < k) (e : Entry) (es : List Entry) :
    (e :: es)[k - n]? = es[k - (n + 1)]? := by
  rw [show k - n = k - (n + 1) + 1 by omega, List.getElem?_cons_succ]

/-- The index that `findClash` names is that of an entry which clashes. -/
theorem clashes_of_findClash {e : Entry} {n k : Nat} {fs : List Entry} (h : findClash e n fs = some k) :
    n ≤ k ∧ ∃ f, fs[k - n]? = some f ∧ e.clashes f = true := by
  induction fs generalizing n with
  | nil => cases h
  | cons f fs ih =>
    rw [findClash] at h
    by_cases hc : e.clashes f = true
    · rw [if_pos hc] at h
      cases h
      exact ⟨Nat.le_refl _, f, by simp, hc⟩
    · rw [if_neg hc] at h
      obtain ⟨hle, g, hg, hgc⟩ := ih h
      exact ⟨by omega, g, by rwa [getElem?_cons_sub (by omega)], hgc⟩

/-- What the check does with the next entry. -/
theorem checkFrom_cons (n : Nat) (e : Entry) (es : List Entry) :
    (¬ e.wellFormed = true ∧ checkFrom n (e :: es) = some ⟨n, n⟩) ∨
      (e.wellFormed = true ∧ ∃ k, findClash e (n + 1) es = some k ∧ checkFrom n (e :: es) = some ⟨n, k⟩) ∨
      (e.wellFormed = true ∧ findClash e (n + 1) es = none ∧ checkFrom n (e :: es) = checkFrom (n + 1) es) := by
  rw [checkFrom]
  by_cases hwf : e.wellFormed = true
  · cases hk : findClash e (n + 1) es with
    | some k => exact .inr (.inl ⟨hwf, k, rfl, by simp [hwf]⟩)
    | none => exact .inr (.inr ⟨hwf, rfl, by simp [hwf]⟩)
  · exact .inl ⟨hwf, by simp [hwf]⟩

theorem checkFrom_eq_none_iff (n : Nat) (es : List Entry) :
    checkFrom n es = none ↔ es.Pairwise (fun e f => ¬ e.clashes f = true) ∧ ∀ e ∈ es, e.wellFormed = true := by
  induction es generalizing n with
  | nil => simp [checkFrom]
  | cons e es ih =>
    rw [List.pairwise_cons, List.forall_mem_cons, ← findClash_eq_none_iff e (n + 1)]
    obtain ⟨hwf, hcheck⟩ | ⟨hwf, k, hclash, hcheck⟩ | ⟨hwf, hclash, hcheck⟩ := checkFrom_cons n e es
    · simp [hcheck, hwf]
    · simp [hcheck, hclash]
    · simp [hcheck, hclash, hwf, ih]

/-- Two entries that the check names do clash. -/
theorem clashes_of_checkFrom {n j k : Nat} {es : List Entry} (h : checkFrom n es = some ⟨j, k⟩) (hjk : j < k) :
    n ≤ j ∧ ∃ e f, es[j - n]? = some e ∧ es[k - n]? = some f ∧ e.clashes f = true := by
  induction es generalizing n with
  | nil => cases h
  | cons e es ih =>
    obtain ⟨-, hcheck⟩ | ⟨-, k', hclash, hcheck⟩ | ⟨-, -, hcheck⟩ := checkFrom_cons n e es
    · cases hcheck.symm.trans h
      omega
    · cases hcheck.symm.trans h
      obtain ⟨hle, f, hf, hef⟩ := clashes_of_findClash hclash
      exact ⟨Nat.le_refl _, e, f, by simp, by rwa [getElem?_cons_sub hjk], hef⟩
    · obtain ⟨hle, a, b, ha, hb, hab⟩ := ih (hcheck.symm.trans h)
      exact ⟨by omega, a, b, by rwa [getElem?_cons_sub (by omega)], by rwa [getElem?_cons_sub (by omega)], hab⟩

/-- A catalog that the check rejects never launches (R79, R230). -/
theorem powerUp_of_defect {cat : List Entry} {d : CatalogDefect} (h : checkCatalog cat = some d) (p : Platform)
    (x : Vector Word 32) (m : Memory) : powerUp cat p x m = .error d := by
  rw [powerUp, h]

/-- Settles O7: the constants bit by bit, the check both ways, the pair it names, and the catalog of R80. -/
theorem constructionCheckIsExact : Obligations.ConstructionCheckIsExact := by
  refine ⟨fun p k hp hk => ⟨mask_bit_iff hp hk, matchBits_bit_iff hp hk⟩, catalog_constants, fun cat => ?_,
    fun cat j k h hjk => ?_, fun cat p x m d h => powerUp_of_defect h p x m, checkCatalog_catalog⟩
  · rw [checkCatalog, checkFrom_eq_none_iff, pairwise_iff_getElem?]
    simp only [not_clashes_iff, entry_wellFormed_iff]
    rfl
  · obtain ⟨-, e, f, he, hf, hclash⟩ := clashes_of_checkFrom h hjk
    exact ⟨e, f, he, hf, by simpa [Entry.clashes] using hclash⟩

end Sys2Proof

namespace Sys2Proof.Machine

open Sys2Proof

/-! ### Constants (R100, R237 (2)) -/

/-- A hard-wired destination discards the result, so the value only matters where there is one (R21). -/
theorem RegisterResult.congr_value {s t : State} {rd : Reg} {v v' : Word} (h : RegisterResult s t rd v)
    (hv : s.hardwired rd = false → v = v') : RegisterResult s t rd v' := by
  obtain ⟨hregs, hframe⟩ := h
  refine ⟨fun r => (hregs r).trans ?_, hframe⟩
  by_cases hr : r = rd ∧ s.hardwired rd = false
  · rw [if_pos hr, if_pos hr, hv hr.2]
  · rw [if_neg hr, if_neg hr]

/-- A second result in the same destination replaces the first. -/
theorem RegisterResult.trans {s t u : State} {rd : Reg} {v w : Word} (h : RegisterResult s t rd v)
    (h' : RegisterResult t u rd w) : RegisterResult s u rd w := by
  obtain ⟨hregs, hmem, hout, ⟨hpc, hst, hplat⟩, -⟩ := h
  obtain ⟨hregs', hmem', hout', ⟨hpc', hst', hplat'⟩, hnext⟩ := h'
  have hhard : t.hardwired rd = s.hardwired rd := by rw [State.hardwired, State.hardwired, hplat]
  refine ⟨fun r => ?_, hmem'.trans hmem, hout'.trans hout,
    ⟨hpc'.trans hpc, hst'.trans hst, hplat'.trans hplat⟩, hnext⟩
  rw [hregs' r, hregs r, hhard]
  by_cases hr : r = rd ∧ s.hardwired rd = false
  · rw [if_pos hr, if_pos hr]
  · rw [if_neg hr, if_neg hr, if_neg hr]

/-- The upper half that LUI writes, with the lower half that ORI adds, is the constant (R124, R125). -/
theorem oriValue_luiValue (c : Word) :
    oriValue (luiValue (c.extractLsb' 16 16)) (uimm (c.extractLsb' 0 16)) = c := by
  have hhigh : luiValue (c.extractLsb' 16 16) = c &&& 0xFFFF0000#32 := by
    refine Eq.trans (BitVec.eq_of_toNat_eq ?_) (extract_shiftLeft c 16 16)
    rw [luiValue, wrap32, uimm, zext32, u32, BitVec.toNat_ofInt, BitVec.toNat_shiftLeft, Nat.shiftLeft_eq]
    omega
  have hlow : uimm (c.extractLsb' 0 16) = c &&& 0x0000FFFF#32 := zeroExtend_fieldImm c
  rw [oriValue, hhigh, hlow, ← BitVec.and_or_distrib_left]
  exact BitVec.and_allOnes

/-- Settles O41: LUI leaves the upper half, ORI adds the lower half, and XOR of equal values is zero. -/
theorem luiOriBuildsAnyConstant : Obligations.LuiOriBuildsAnyConstant := by
  refine ⟨fun rt c s => ?_, fun rd rs s => ?_⟩
  · obtain ⟨t, ht, hlui⟩ := finishReg_result rt (luiValue (c.extractLsb' 16 16)) s
    obtain ⟨u, hu, hori⟩ := finishReg_result rt (oriValue (t.readReg rt) (uimm (c.extractLsb' 0 16))) t
    refine ⟨t, u, ht, hu, (hlui.trans hori).congr_value fun hw => ?_⟩
    rw [hlui.1 rt, if_pos ⟨rfl, hw⟩, oriValue_luiValue]
  · obtain ⟨t, ht, hxor⟩ := finishReg_result rd (xorValue (s.readReg rs) (s.readReg rs)) s
    rw [xorValue, BitVec.xor_self] at hxor
    exact ⟨t, ht, hxor⟩

/-! ### Branch fields (R98, R99) -/

/-- The branch's target as a sum of patterns (R141). -/
theorem branchTarget_eq (pc : Word) (imm : Half) : branchTarget pc imm = pc + 4#32 + 4#32 * imm.signExtend 32 := by
  unfold branchTarget wrap32 u32 s32 sext32
  rw [BitVec.ofInt_add, BitVec.ofInt_mul, BitVec.ofInt_toInt, BitVec.ofInt_add, BitVec.ofInt_natCast,
    BitVec.ofNat_toNat, BitVec.setWidth_eq]
  rfl

/-- A displacement in the range of R98 is read back from its field. -/
theorem s32_sext32_ofInt {d : Int} (hlo : -32768 ≤ d) (hhi : d ≤ 32767) : s32 (sext32 (BitVec.ofInt 16 d)) = d := by
  rw [s32, sext32, BitVec.toInt_signExtend_of_le (by decide), BitVec.toInt_ofInt]
  exact Int.bmod_eq_of_le (by omega) (by omega)

/-- The branch with the field of R99 goes to its label. -/
theorem branchTarget_branchField {pc label : Word} (hpc : u32 pc % 4 = 0) (hl : u32 label % 4 = 0)
    (hlo : -32768 ≤ ((u32 label : Int) - (u32 pc + 4)) / 4) (hhi : ((u32 label : Int) - (u32 pc + 4)) / 4 ≤ 32767) :
    branchTarget pc (branchField pc label) = label := by
  have hfield : s32 (sext32 (branchField pc label)) = ((u32 label : Int) - (u32 pc + 4)) / 4 := s32_sext32_ofInt hlo hhi
  have hsum : (u32 pc : Int) + 4 + 4 * (((u32 label : Int) - (u32 pc + 4)) / 4) = u32 label := by omega
  rw [branchTarget, hfield, hsum, wrap32, BitVec.ofInt_natCast, u32, BitVec.ofNat_toNat, BitVec.setWidth_eq]

/-- A branch that is taken requests its target, and that is all (R140). -/
theorem branchIf_taken {taken : Bool} (h : taken = true) (imm : Half) (s : State) :
    branchIf taken imm s = .next { s with outcome := some (.transfer (branchTarget s.pc imm)) } := by
  rw [branchIf_eq, if_pos h]

/-- Settles O45: the field makes the target the label, and each branch whose condition holds goes to its target. -/
theorem branchFieldReachesItsLabel : Obligations.BranchFieldReachesItsLabel := by
  intro s rs rt label hpc hl hlo hhi
  have htarget := branchTarget_branchField hpc hl hlo hhi
  have taken {b : Bool} (hb : b = true) :
      branchIf b (branchField s.pc label) s = .next { s with outcome := some (.transfer label) } := by
    rw [branchIf_taken hb, htarget]
  exact ⟨(branchTarget_eq _ _).symm.trans htarget, fun h => taken (decide_eq_true h), fun h => taken (decide_eq_true h),
    fun h => taken (beq_iff_eq.2 h)⟩

end Sys2Proof.Machine
end

section
/-! Proofs for `40_arith_logic.md`: where the matcher finds an instruction's word, what each instruction's value is over the
integers, and DRAIN's loop over the whole bank. -/

namespace Sys2Proof

open Sys2Proof.Machine

/-- The matcher's index of an instruction's word is the instruction's index in the catalog (R77, R80, R81). -/
theorem catalogIndex_encode (i : Instr) : catalogIndex (encode i) = some i.index := by
  obtain ⟨e, he, haccepts, -⟩ := ownEntry i
  exact (catalogIndex_eq_some_iff _ _).2
    ⟨⟨e, he, haccepts⟩, fun j f hj hf hfacc => Nat.ne_of_lt hj (index_unique hf he hfacc haccepts)⟩

/-- An instruction's word is matched at its index, with the format tag that the entry there has (R80). -/
theorem encodedAt_index (i : Instr) {f : Format} (hf : (catalog[i.index]?).map (·.format) = some f) :
    EncodedAt i i.index f :=
  ⟨catalogIndex_encode i, hf⟩

end Sys2Proof

namespace Sys2Proof.Machine

open Sys2Proof

/-! ### Readings and wrapping (R10, R11) -/

/-- Wrapping changes nothing of a number in the signed range (R10). -/
theorem toInt_wrap32 {n : Int} (hlo : -2147483648 ≤ n) (hhi : n < 2147483648) : (wrap32 n).toInt = n :=
  BitVec.toInt_ofInt_eq_self (by decide) hlo hhi

/-- The signed range (R10). -/
theorem toInt_range (v : Word) : -2147483648 ≤ v.toInt ∧ v.toInt < 2147483648 :=
  ⟨BitVec.le_toInt v, BitVec.toInt_lt⟩

theorem isPositive_iff (v : Word) : isPositive v = true ↔ 0 < v.toInt := decide_eq_true_iff

theorem s32_simm (imm : Half) : s32 (simm imm) = imm.toInt :=
  BitVec.toInt_signExtend_of_le (by decide)

/-- Adding signed readings and wrapping is adding patterns (R10). -/
theorem addValue_eq (a b : Word) : addValue a b = a + b := by
  rw [addValue, wrap32, s32, s32, BitVec.ofInt_add, BitVec.ofInt_toInt, BitVec.ofInt_toInt]

/-- Adding a number to a signed reading and wrapping is adding its pattern (R10). -/
theorem wrap32_s32_add (a : Word) (n : Nat) : wrap32 (s32 a + n) = a + BitVec.ofNat 32 n := by
  rw [wrap32, s32, BitVec.ofInt_add, BitVec.ofInt_toInt, BitVec.ofInt_natCast]

/-- Subtracting signed readings and wrapping is subtracting patterns (R10). -/
theorem subValue_eq (a b : Word) : subValue a b = a - b := by
  rw [subValue, wrap32, s32, s32, Int.sub_eq_add_neg, BitVec.ofInt_add, BitVec.ofInt_neg, BitVec.ofInt_toInt,
    BitVec.ofInt_toInt, BitVec.sub_eq_add_neg]

/-- What SUBI makes of the sum that ADDI made is the value ADDI was given (R112, R113). -/
theorem subValue_addValue (a b : Word) : subValue (addValue a b) b = a := by
  rw [addValue_eq, subValue_eq, BitVec.add_sub_cancel]

/-! ### The values (R114 to R125) -/

/-- The half of a signed number, truncated toward zero, is in the signed range, so the second wrap loses nothing (R115). -/
theorem toInt_avgValue (a b : Word) : (avgValue a b).toInt = (a + b).toInt.tdiv 2 := by
  have hsum : wrap32 (s32 a + s32 b) = a + b := addValue_eq a b
  have hrange := toInt_range (a + b)
  have hhalf : ((a + b).toInt.tdiv 2).natAbs = (a + b).toInt.natAbs / 2 := Int.natAbs_tdiv _ 2
  rw [avgValue, hsum]
  exact toInt_wrap32 (n := (a + b).toInt.tdiv 2) (by omega) (by omega)

/-- The three-way comparison, wrapped (R117). -/
theorem cmp3Value_eq (a b : Word) :
    cmp3Value a b = if a.toInt < b.toInt then 0xFFFFFFFF#32 else if b.toInt < a.toInt then 1#32 else 0#32 := by
  rw [cmp3Value, threeWay, apply_ite wrap32, apply_ite wrap32]
  rfl

/-- The value is below the limits, above them or between them (R118). -/
theorem toInt_clampValue (a : Word) : (clampValue a).toInt = max (-100) (min 100 a.toInt) := by
  unfold clampValue s32 clampLo clampHi
  split
  · rw [toInt_wrap32 (by decide) (by decide)]; omega
  split
  · rw [toInt_wrap32 (by decide) (by decide)]; omega
  · omega

/-- The residue of MODNORM less the bias needs no wrapping (R119). -/
theorem toInt_modnormValue (a : Word) : (modnormValue a).toInt = a.toInt.fmod 101 - 50 := by
  have hlo := Int.fmod_nonneg_of_pos a.toInt (b := 101) (by decide)
  have hhi := Int.fmod_lt_of_pos a.toInt (b := 101) (by decide)
  exact toInt_wrap32 (n := a.toInt.fmod 101 - 50) (by omega) (by omega)

theorem sgncValue_eq (a : Word) : sgncValue a = if 0 < a.toInt then 1#32 else 0#32 := by
  simp only [sgncValue, isPositive_iff]

theorem bidxValue_of_nonpos {n : Word} (hn : n.toInt ≤ 0) (a : Word) : bidxValue a n = 0#32 := if_pos hn

theorem bidxValue_of_pos {n : Word} (hn : 0 < n.toInt) (a : Word) :
    bidxValue a n = wrap32 (a.toInt.fmod n.toInt) :=
  if_neg (Int.not_le.2 hn)

/-- The residue of BIDX is below its modulus and needs no wrapping (R121). -/
theorem toInt_bidxValue {n : Word} (hn : 0 < n.toInt) (a : Word) : (bidxValue a n).toInt = a.toInt.fmod n.toInt := by
  have hlo := Int.fmod_nonneg_of_pos a.toInt hn
  have hhi := Int.fmod_lt_of_pos a.toInt hn
  have hrange := toInt_range n
  rw [bidxValue_of_pos hn, toInt_wrap32 (by omega) (by omega)]

/-- BIDX depends on the residue class only (R121). -/
theorem bidxValue_congr {n a a' : Word} (hn : 0 < n.toInt) (h : n.toInt ∣ a'.toInt - a.toInt) :
    bidxValue a' n = bidxValue a n := by
  have hmod : a'.toInt.fmod n.toInt = a.toInt.fmod n.toInt :=
    Int.fmod_eq_fmod_iff_fmod_sub_eq_zero.2 (Int.fmod_eq_zero_of_dvd h)
  rw [bidxValue_of_pos hn, bidxValue_of_pos hn, hmod]

/-- LUI's product is a shift to the upper half (R124). -/
theorem luiValue_eq (imm : Half) : luiValue imm = imm ++ 0#16 := by
  apply BitVec.eq_of_toNat_eq
  have himm : u32 (uimm imm) = imm.toNat := BitVec.toNat_setWidth_of_le (show 16 ≤ 32 by decide)
  have happend : (imm ++ 0#16).toNat = imm.toNat * 65536 := by
    rw [BitVec.toNat_append, BitVec.toNat_ofNat, Nat.zero_mod, Nat.or_zero, Nat.shiftLeft_eq]
  have hlt := imm.isLt
  rw [luiValue, himm, wrap32, BitVec.toNat_ofInt, happend]
  omega

/-- Zero extension puts a zero upper half before the immediate (R11, R93). -/
theorem uimm_eq (imm : Half) : uimm imm = 0#16 ++ imm :=
  BitVec.setWidth_eq_append (show 16 ≤ 32 by decide)

/-! ### The bank (R22, R122, R123) -/

/-- The bank's sum is the sum over the registers it visits (R122). -/
theorem bankSum_eq_sum (s : State) (js : List Nat) :
    bankSum s js = ((js.map (bankReg s.plat.cfg)).map fun r => (s.readReg r).toInt).sum := by
  induction js with
  | nil => rfl
  | cons j js ih => rw [bankSum, ih]; rfl

theorem length_bankRegisters {c : Config} (hc : c.wellFormed = true) : (bankRegisters c).length = 8 := by
  rw [bankRegisters_eq hc, List.length_map]; rfl

theorem mem_bankRegisters (c : Config) (r : Reg) :
    r ∈ bankRegisters c ↔ c.bankBase ≤ r.val ∧ r.val < c.bankBase + 8 := by
  simp [bankRegisters]

/-- `drainLoop_bank` for the whole bank: its indices are distinct, and in a configuration R9 allows so are its registers. -/
theorem drainLoop_bankIndices {s : State} (hc : s.plat.cfg.wellFormed = true) (n : Nat) :
    (∀ j ∈ bankIndices, (drainLoop bankIndices s n).1.readReg (bankReg s.plat.cfg j) =
      if isPositive (s.readReg (bankReg s.plat.cfg j)) = true then
        wrap32 (s32 (s.readReg (bankReg s.plat.cfg j)) - 1)
      else s.readReg (bankReg s.plat.cfg j)) ∧
    (drainLoop bankIndices s n).2 =
      n + (bankIndices.filter fun j => isPositive (s.readReg (bankReg s.plat.cfg j))).length :=
  drainLoop_bank bankIndices s n
    (fun _ hj _ hk => bankReg_injective hc (List.mem_range.1 hj) (List.mem_range.1 hk)) List.nodup_range

/-- What a register reads as after DRAIN's loop: a register of the bank that was positive is one less, and every other one
is as before (R123). -/
theorem readReg_drainLoop {s : State} (hc : s.plat.cfg.wellFormed = true) (n : Nat) (r : Reg) :
    (drainLoop bankIndices s n).1.readReg r =
      if s.plat.cfg.bankBase ≤ r.val ∧ r.val < s.plat.cfg.bankBase + 8 ∧ 0 < (s.readReg r).toInt
        then s.readReg r - 1#32 else s.readReg r := by
  simp only [← and_assoc, ← mem_bankRegisters, bankRegisters_eq hc]
  by_cases hr : r ∈ bankIndices.map (bankReg s.plat.cfg)
  · obtain ⟨j, hj, rfl⟩ := List.mem_map.1 hr
    have hdec : wrap32 (s32 (s.readReg (bankReg s.plat.cfg j)) - 1) = s.readReg (bankReg s.plat.cfg j) - 1#32 :=
      subValue_eq _ 1#32
    rw [(drainLoop_bankIndices hc n).1 j hj, hdec]
    simp only [hr, true_and, isPositive_iff]
  · rw [if_neg fun h => hr h.1]
    exact drainLoop_other _ s n r fun j hj h => hr (List.mem_map.2 ⟨j, hj, h.symm⟩)

/-- What DRAIN's loop counts: the registers of the bank that were positive (R123). -/
theorem drainLoop_count {s : State} (hc : s.plat.cfg.wellFormed = true) :
    (drainLoop bankIndices s 0).2 =
      ((bankRegisters s.plat.cfg).filter fun b => 0 < (s.readReg b).toInt).length := by
  rw [(drainLoop_bankIndices hc 0).2, Nat.zero_add, bankRegisters_eq hc, List.filter_map, List.length_map]
  rfl

/-! ### The instructions -/

/-- `finishReg_result` with the value written another way. -/
theorem finishReg_result_of_eq {v v' : Word} (hv : v = v') (rd : Reg) (s : State) :
    ∃ t, finishReg rd v s = .next t ∧ RegisterResult s t rd v' :=
  hv ▸ finishReg_result rd v s

/-- `finishReg_result` of a next state that is given. -/
theorem registerResult_of_finishReg {rd : Reg} {v : Word} {s t : State} (h : finishReg rd v s = .next t) :
    RegisterResult s t rd v := by
  obtain ⟨u, hu, hres⟩ := finishReg_result rd v s
  cases hu.symm.trans h
  exact hres

/-- Writing what a register already holds changes no register. -/
theorem RegisterResult.sameRegs {s t : State} {rd : Reg} (h : RegisterResult s t rd (s.readReg rd)) : SameRegs s t := by
  intro r
  rw [h.1 r]
  split
  · next hr => rw [hr.1]
  · rfl

/-- Settles O27: the signed reading of the extended immediate is the immediate's own. -/
theorem addiWritesTheWrappedSum : Obligations.AddiWritesTheWrappedSum := by
  intro rt rs imm s
  refine ⟨encodedAt_index _ rfl, finishReg_result_of_eq ?_ rt s⟩
  rw [addValue, s32_simm]; rfl

/-- Settles O28: as for ADDI, and the second of the two results in `rt` is the value that `rt` held. -/
theorem subiWritesTheWrappedDifference : Obligations.SubiWritesTheWrappedDifference := by
  intro rt rs imm s
  refine ⟨encodedAt_index _ rfl, finishReg_result_of_eq ?_ rt s, ?_⟩
  · rw [subValue, s32_simm]; rfl
  · obtain ⟨t, ht, hadd⟩ := finishReg_result rt (addValue (s.readReg rt) (simm imm)) s
    obtain ⟨u, hu, hsub⟩ := finishReg_result rt (subValue (t.readReg rt) (simm imm)) t
    refine ⟨t, u, ht, hu, RegisterResult.sameRegs ((hadd.trans hsub).congr_value fun hw => ?_)⟩
    rw [hadd.1 rt, if_pos ⟨rfl, hw⟩, subValue_addValue]

/-- Settles O29: `maxmagValue` compares the magnitudes of the integers. -/
theorem maxmagKeepsTheLargerMagnitude : Obligations.MaxmagKeepsTheLargerMagnitude :=
  fun rd rs rt s => ⟨encodedAt_index _ rfl, finishReg_result rd (maxmagValue (s.readReg rs) (s.readReg rt)) s⟩

/-- Settles O30: the wrapped sum is the sum of the patterns, and its half is in range. -/
theorem avgHalvesTheWrappedSum : Obligations.AvgHalvesTheWrappedSum := by
  intro rd rs rt s
  obtain ⟨t, ht, hres⟩ := finishReg_result rd (avgValue (s.readReg rs) (s.readReg rt)) s
  exact ⟨encodedAt_index _ rfl, t, _, ht, hres, toInt_avgValue _ _⟩

/-- Settles O31: `xorValue` is the exclusive or of the patterns. -/
theorem xorWritesTheBitwiseXor : Obligations.XorWritesTheBitwiseXor :=
  fun rd rs rt s => ⟨encodedAt_index _ rfl, finishReg_result rd (xorValue (s.readReg rs) (s.readReg rt)) s⟩

/-- Settles O32: the three results of the comparison, wrapped. -/
theorem cmp3WritesTheSignedOrder : Obligations.Cmp3WritesTheSignedOrder :=
  fun rd _ _ s => ⟨encodedAt_index _ rfl, finishReg_result_of_eq (cmp3Value_eq _ _) rd s⟩

/-- Settles O33: the value below, above and between the limits. -/
theorem clampLimitsToPlusMinusHundred : Obligations.ClampLimitsToPlusMinusHundred := by
  intro rd rs s
  obtain ⟨t, ht, hres⟩ := finishReg_result rd (clampValue (s.readReg rs)) s
  exact ⟨encodedAt_index _ rfl, t, _, ht, hres, toInt_clampValue _⟩

/-- Settles O34: a floored residue modulo 101 lies in `[0, 100]`. -/
theorem modnormNormalisesIntoFifty : Obligations.ModnormNormalisesIntoFifty := by
  intro rd rs s
  obtain ⟨t, ht, hres⟩ := finishReg_result rd (modnormValue (s.readReg rs)) s
  have hlo := Int.fmod_nonneg_of_pos (s.readReg rs).toInt (b := 101) (by decide)
  have hhi := Int.fmod_lt_of_pos (s.readReg rs).toInt (b := 101) (by decide)
  refine ⟨encodedAt_index _ rfl, t, _, ht, hres, ?_⟩
  rw [toInt_modnormValue, Int.sub_add_cancel]
  exact ⟨by omega, by omega, Int.dvd_self_sub_fmod⟩

/-- Settles O35: the condition on the signed reading. -/
theorem sgncIsOneExactlyForPositive : Obligations.SgncIsOneExactlyForPositive :=
  fun rd _ s => ⟨encodedAt_index _ rfl, finishReg_result_of_eq (sgncValue_eq _) rd s⟩

/-- Settles O36: the two cases of the modulus; a positive one's residue is in range and depends on the class only. -/
theorem bidxIsTheFlooredResidue : Obligations.BidxIsTheFlooredResidue := by
  intro rd rs rt s
  obtain ⟨t, ht, hres⟩ := finishReg_result rd (bidxValue (s.readReg rs) (s.readReg rt)) s
  refine ⟨encodedAt_index _ rfl, t, _, ht, hres, fun hn => bidxValue_of_nonpos hn _, fun hn => ?_⟩
  rw [toInt_bidxValue hn]
  refine ⟨Int.fmod_nonneg_of_pos _ hn, Int.fmod_lt_of_pos _ hn, Int.dvd_self_sub_fmod, fun s' t' h hw hrt hdvd => ?_⟩
  have hres' : RegisterResult s' t' rd (bidxValue (s'.readReg rs) (s'.readReg rt)) := registerResult_of_finishReg h
  rw [hres'.1 rd, if_pos ⟨rfl, hw⟩, hrt, bidxValue_congr hn hdvd]

/-- Settles O37: the bank's indices name the registers of the bank. -/
theorem sumbankWritesTheBanksSum : Obligations.SumbankWritesTheBanksSum := by
  refine fun rd s => ⟨encodedAt_index _ rfl, fun hc => ⟨length_bankRegisters hc, finishReg_result_of_eq ?_ rd s⟩⟩
  rw [bankSum_eq_sum, ← bankRegisters_eq hc]; rfl

/-- Settles O38: the destination is written after the loop, so it holds what the loop left there plus the count. -/
theorem drainDecrementsPositiveBankRegisters : Obligations.DrainDecrementsPositiveBankRegisters := by
  refine fun rd s => ⟨encodedAt_index _ rfl, fun hc => ?_⟩
  obtain ⟨hmem, hout, hpc, hst, hplat⟩ := drainLoop_frame bankIndices s 0
  have hread := readReg_drainLoop hc 0
  have hhard : (drainLoop bankIndices s 0).1.hardwired rd = s.hardwired rd := by
    rw [State.hardwired, State.hardwired, hplat]
  obtain ⟨t, ht, hregs, hmem', hout', ⟨hpc', hst', hplat'⟩, hnext⟩ :=
    finishReg_result rd (wrap32 (s32 ((drainLoop bankIndices s 0).1.readReg rd) + (drainLoop bankIndices s 0).2))
      (drainLoop bankIndices s 0).1
  refine ⟨t, ht, fun r => ?_, hmem'.trans hmem, hout'.trans hout,
    ⟨hpc'.trans hpc, hst'.trans hst, hplat'.trans hplat⟩, hnext⟩
  rw [hregs r, hhard, wrap32_s32_add, drainLoop_count hc, ← hread r]
  by_cases hr : r = rd ∧ s.hardwired rd = false
  · rw [if_pos hr, if_pos hr, hr.1]
  · rw [if_neg hr, if_neg hr, BitVec.add_zero]

/-- Settles O39: the value is made of the immediate alone. -/
theorem luiWritesTheUpperHalf : Obligations.LuiWritesTheUpperHalf :=
  fun rt _ imm s => ⟨encodedAt_index _ rfl, finishReg_result_of_eq (luiValue_eq imm) rt s⟩

/-- Settles O40: zero extension is a zero upper half. -/
theorem oriWritesTheBitwiseOr : Obligations.OriWritesTheBitwiseOr := by
  refine fun rt rs imm s => ⟨encodedAt_index _ rfl, finishReg_result_of_eq ?_ rt s⟩
  rw [oriValue, uimm_eq]

end Sys2Proof.Machine
end

section
/-! Proofs for `41_control_transfer.md`: a branch as its condition over the integers and its target as a sum of patterns,
and JMP by what its reference resolves to. -/

namespace Sys2Proof.Machine

open Sys2Proof

/-! ### Branches (R140 to R144) -/

theorem isNegative_iff (v : Word) : isNegative v = true ↔ v.toInt < 0 := decide_eq_true_iff

theorem isEqual_iff (v w : Word) : isEqual v w = true ↔ v = w := beq_iff_eq

/-- `branchIf_eq` with the condition and the target as the spec writes them (R140, R141). -/
theorem branchIf_eq_of_iff {taken : Bool} {p : Prop} [Decidable p] (h : taken = true ↔ p) (imm : Half) (s : State) :
    branchIf taken imm s = .next { s with outcome := some (
      if p then .transfer (s.pc + 4#32 + 4#32 * imm.signExtend 32) else .next) } := by
  simp only [branchIf_eq, branchTarget_eq, h]

/-- Settles O42: the condition is on the signed reading of the register. -/
theorem bposTransfersOnPositive : Obligations.BposTransfersOnPositive :=
  fun _ imm s => ⟨encodedAt_index _ rfl, branchIf_eq_of_iff (isPositive_iff _) imm s⟩

/-- Settles O43: the condition is on the signed reading of the register. -/
theorem bnegTransfersOnNegative : Obligations.BnegTransfersOnNegative :=
  fun _ imm s => ⟨encodedAt_index _ rfl, branchIf_eq_of_iff (isNegative_iff _) imm s⟩

/-- Settles O44: the condition is on the patterns of the two registers. -/
theorem beqTransfersOnEqual : Obligations.BeqTransfersOnEqual :=
  fun _ _ imm s => ⟨encodedAt_index _ rfl, branchIf_eq_of_iff (isEqual_iff _ _) imm s⟩

/-! ### The jump (R145) -/

/-- A reference that `SymTab` holds: JMP requests its address and does nothing else. -/
theorem execJmp_of_symResolve_some {ref : Half} {s : State} {a : Word} (h : s.symResolve ref = some a) :
    execJmp ref s = .next { s with outcome := some (.transfer a) } := by
  rw [execJmp, h]; rfl

/-- A reference that `SymTab` does not hold: JMP fails with it and does nothing else. -/
theorem execJmp_of_symResolve_none {ref : Half} {s : State} (h : s.symResolve ref = none) :
    execJmp ref s = .next { s with outcome := some (.fail .unresolvedSymbol (ref.zeroExtend 32)) } := by
  rw [execJmp, h]; rfl

/-- Settles O46: the two answers of the symbol port. -/
theorem jmpTransfersToTheResolvedLabel : Obligations.JmpTransfersToTheResolvedLabel :=
  fun _ _ => ⟨encodedAt_index _ rfl, fun _ => execJmp_of_symResolve_some, execJmp_of_symResolve_none⟩

end Sys2Proof.Machine
end

section
/-! Proofs for `42_string_syscall.md`: the string loop on each kind of string, PSTR by what its reference resolves to, SYSCALL
by its selector, and the decimal text as the digits of its number. -/

namespace Sys2Proof.Machine

open Sys2Proof

/-! ### The string loop (R156) -/

/-- `printLoop_string` for the whole loop, whose fuel is longer than any string. -/
theorem printString_of_stringAt {s : State} {a : Word} {bs : List Byte} (hlen : bs.length < 4294967296)
    (h : StringAt s a bs) : printString a s = .next { s with out := s.out ++ bs, outcome := some .next } :=
  printLoop_string h hlen

/-- `printLoop_broken` for the whole loop. -/
theorem printString_of_brokenStringAt {s : State} {a bad : Word} {bs : List Byte} (hlen : bs.length < 4294967296)
    (h : BrokenStringAt s a bs bad) :
    printString a s = .next { s with out := s.out ++ bs, outcome := some (.fail .addressError bad) } :=
  printLoop_broken h hlen

/-- `printLoop_endless` for the whole loop (U8). -/
theorem printString_of_endless {s : State} (h : ∀ a : Word, ∃ b, b ≠ 0#8 ∧ s.memRead a = some b) (a : Word) :
    printString a s = .fault .stringNeverEnds :=
  printLoop_endless h addressCount a

/-! ### PSTR (R157) -/

/-- A reference that `SymTab` holds: PSTR is the string loop at its address. -/
theorem execPstr_of_symResolve_some {ref : Half} {s : State} {a : Word} (h : s.symResolve ref = some a) :
    execPstr ref s = printString a s := by
  rw [execPstr, h]

/-- A reference that `SymTab` does not hold: PSTR fails with it and does nothing else. -/
theorem execPstr_of_symResolve_none {ref : Half} {s : State} (h : s.symResolve ref = none) :
    execPstr ref s = .next { s with outcome := some (.fail .unresolvedSymbol (ref.zeroExtend 32)) } := by
  rw [execPstr, h]; rfl

/-- Settles O47: the two answers of the symbol port, and the two ends of the string loop. -/
theorem pstrPrintsTheStringAtItsLabel : Obligations.PstrPrintsTheStringAtItsLabel := by
  intro ref s
  refine ⟨encodedAt_index _ rfl, fun a bs ha hlen h => ?_, fun a bs bad ha hlen h => ?_, execPstr_of_symResolve_none⟩
  · exact (execPstr_of_symResolve_some ha).trans (printString_of_stringAt hlen h)
  · exact (execPstr_of_symResolve_some ha).trans (printString_of_brokenStringAt hlen h)

/-! ### SYSCALL (R158, R160) -/

section Syscall
variable {s : State}

theorem execSyscall_of_printInt (h : (s.readReg s.plat.cfg.sysSelReg).toInt = s.plat.cfg.svcPrintInt) :
    execSyscall s = .next { s with
      out := s.out ++ decimalText (s.readReg s.plat.cfg.sysArgReg).toInt, outcome := some .next } :=
  if_pos h

/-- A selector other than print-integer leaves the choice among the other services. -/
theorem execSyscall_of_ne_printInt (h : (s.readReg s.plat.cfg.sysSelReg).toInt ≠ s.plat.cfg.svcPrintInt) :
    execSyscall s =
      if (s.readReg s.plat.cfg.sysSelReg).toInt = s.plat.cfg.svcPrintStr then
        printString (s.readReg s.plat.cfg.sysArgReg) s
      else if (s.readReg s.plat.cfg.sysSelReg).toInt = s.plat.cfg.svcExit then .next s.terminate
      else .next (s.raise .unsupportedOperation (s.readReg s.plat.cfg.sysSelReg)) :=
  if_neg h

theorem execSyscall_of_printStr (hint : (s.readReg s.plat.cfg.sysSelReg).toInt ≠ s.plat.cfg.svcPrintInt)
    (h : (s.readReg s.plat.cfg.sysSelReg).toInt = s.plat.cfg.svcPrintStr) :
    execSyscall s = printString (s.readReg s.plat.cfg.sysArgReg) s := by
  rw [execSyscall_of_ne_printInt hint, if_pos h]

theorem execSyscall_of_exit (hint : (s.readReg s.plat.cfg.sysSelReg).toInt ≠ s.plat.cfg.svcPrintInt)
    (hstr : (s.readReg s.plat.cfg.sysSelReg).toInt ≠ s.plat.cfg.svcPrintStr)
    (h : (s.readReg s.plat.cfg.sysSelReg).toInt = s.plat.cfg.svcExit) :
    execSyscall s = .next { s with outcome := some .terminate } := by
  rw [execSyscall_of_ne_printInt hint, if_neg hstr, if_pos h]; rfl

theorem execSyscall_of_unsupported (hint : (s.readReg s.plat.cfg.sysSelReg).toInt ≠ s.plat.cfg.svcPrintInt)
    (hstr : (s.readReg s.plat.cfg.sysSelReg).toInt ≠ s.plat.cfg.svcPrintStr)
    (h : (s.readReg s.plat.cfg.sysSelReg).toInt ≠ s.plat.cfg.svcExit) :
    execSyscall s = .next { s with
      outcome := some (.fail .unsupportedOperation (s.readReg s.plat.cfg.sysSelReg)) } := by
  rw [execSyscall_of_ne_printInt hint, if_neg hstr, if_neg h]; rfl

end Syscall

/-- Settles O48: the services in the order they are tried, and the two ends of the string loop. -/
theorem syscallRunsTheSelectedService : Obligations.SyscallRunsTheSelectedService := by
  intro s
  refine ⟨encodedAt_index _ rfl, execSyscall_of_printInt, fun hint =>
    ⟨fun hstr => ⟨fun bs hlen h => ?_, fun bs bad hlen h => ?_⟩,
      fun hstr => ⟨execSyscall_of_exit hint hstr, execSyscall_of_unsupported hint hstr⟩⟩⟩
  · exact (execSyscall_of_printStr hint hstr).trans (printString_of_stringAt hlen h)
  · exact (execSyscall_of_printStr hint hstr).trans (printString_of_brokenStringAt hlen h)

/-! ### A string without an end (U8) -/

/-- Settles O26: what each instruction answers is known from its family. -/
theorem onlyAnEndlessStringStopsAnInstruction : Obligations.OnlyAnEndlessStringStopsAnInstruction :=
  exec_next_or_endless

/-- Settles O51: both instructions come to the string loop, which never ends in such a memory. -/
theorem endlessStringNeverCompletes : Obligations.EndlessStringNeverCompletes := by
  refine fun s hs => ⟨fun ref a ha => ?_, fun hstr hint => ?_⟩
  · exact (execPstr_of_symResolve_some ha).trans (printString_of_endless hs a)
  · exact (execSyscall_of_printStr hint hstr).trans (printString_of_endless hs _)

/-! ### The decimal text (R159) -/

theorem toNat_digitByte {d : Nat} (h : d < 10) : (digitByte d).toNat = 0x30 + d := by
  rw [digitByte, BitVec.toNat_ofNat]
  omega

theorem digitByte_ascii {d : Nat} (h : d < 10) : 0x30 ≤ (digitByte d).toNat ∧ (digitByte d).toNat ≤ 0x39 := by
  rw [toNat_digitByte h]; omega

/-- The last digit weighs 1 and those before it ten times as much as alone. -/
theorem digitsValue_concat (ds : List Byte) (d : Byte) :
    digitsValue (ds ++ [d]) = 10 * digitsValue ds + (d.toNat - 0x30) := by
  rw [digitsValue, List.foldl_append]; rfl

theorem decimalDigits_of_lt {n : Nat} (h : n < 10) (fuel : Nat) : decimalDigits (fuel + 1) n = [digitByte n] :=
  if_pos h

theorem decimalDigits_of_le {n : Nat} (h : 10 ≤ n) (fuel : Nat) :
    decimalDigits (fuel + 1) n = decimalDigits fuel (n / 10) ++ [digitByte (n % 10)] :=
  if_neg (Nat.not_lt.2 h)

theorem decimalDigits_ne_nil (fuel n : Nat) : decimalDigits (fuel + 1) n ≠ [] := by
  rcases Nat.lt_or_ge n 10 with h | h
  · simp [decimalDigits_of_lt h]
  · simp [decimalDigits_of_le h]

theorem decimalDigits_ascii {fuel n : Nat} {d : Byte} (hd : d ∈ decimalDigits fuel n) :
    0x30 ≤ d.toNat ∧ d.toNat ≤ 0x39 := by
  induction fuel generalizing n with
  | zero => cases hd
  | succ fuel ih =>
    rcases Nat.lt_or_ge n 10 with h | h
    · rw [decimalDigits_of_lt h, List.mem_singleton] at hd
      exact hd ▸ digitByte_ascii h
    · rw [decimalDigits_of_le h, List.mem_append, List.mem_singleton] at hd
      rcases hd with hd | rfl
      · exact ih hd
      · exact digitByte_ascii (Nat.mod_lt n (by decide))

/-- Where the fuel is no fewer than the digits, they spell the number. -/
theorem digitsValue_decimalDigits {fuel n : Nat} (hn : n < 10 ^ fuel) : digitsValue (decimalDigits fuel n) = n := by
  induction fuel generalizing n with
  | zero => exact (Nat.lt_one_iff.1 hn).symm
  | succ fuel ih =>
    rcases Nat.lt_or_ge n 10 with h | h
    · rw [decimalDigits_of_lt h, ← List.nil_append [digitByte n], digitsValue_concat, toNat_digitByte h,
        Nat.add_sub_cancel_left]
      exact Nat.zero_add n
    · have hdiv : n / 10 < 10 ^ fuel := by omega
      rw [decimalDigits_of_le h, digitsValue_concat, ih hdiv, toNat_digitByte (Nat.mod_lt n (by decide))]
      omega

/-- A number other than zero is spelled without a leading zero. -/
theorem head?_decimalDigits {fuel n : Nat} (hpos : 0 < n) (hn : n < 10 ^ fuel) :
    (decimalDigits fuel n).head? ≠ some 0x30#8 := by
  induction fuel generalizing n with
  | zero => nofun
  | succ fuel ih =>
    rcases Nat.lt_or_ge n 10 with h | h
    · rw [decimalDigits_of_lt h]
      intro hzero
      have hvalue : 0x30 + n = 0x30 := by rw [← toNat_digitByte h, Option.some.inj hzero]; rfl
      omega
    · have hdiv : n / 10 < 10 ^ fuel := by omega
      obtain ⟨fuel, rfl⟩ : ∃ k, fuel = k + 1 := Nat.exists_eq_succ_of_ne_zero (by rintro rfl; omega)
      rw [decimalDigits_of_le h, List.head?_append, Option.or_of_isSome (List.isSome_head?.2 (decimalDigits_ne_nil fuel _))]
      exact ih (by omega) hdiv

/-- Settles O50: ten digits are enough for the magnitude of any integer in the range. -/
theorem decimalTextSpellsItsInteger : Obligations.DecimalTextSpellsItsInteger := by
  intro n hlo hhi
  have hfuel : n.natAbs < 10 ^ 10 := by omega
  refine ⟨decimalDigits 10 n.natAbs, rfl, decimalDigits_ne_nil 9 _, fun d => decimalDigits_ascii,
    digitsValue_decimalDigits hfuel, fun hhead => ?_⟩
  obtain rfl : n = 0 := Decidable.byContradiction fun hne =>
    head?_decimalDigits (Int.natAbs_pos.2 hne) hfuel hhead
  exact ⟨rfl, rfl⟩

end Sys2Proof.Machine
end

section
/-! Proofs for `43_framebuffer.md`: the words of the grid's pixels, a drawing instruction as the list of its word
writes, and which pixels each list paints. -/

namespace Sys2Proof.Machine

open Sys2Proof

/-! ### The address calculator (R171, R185) -/

/-- The address determines the pixel (R185). -/
theorem pixel_eq_of_pixelByte_eq {c : Config} {x y x' y' : Nat} (hx : x < 512) (hx' : x' < 512)
    (h : pixelByte c x y = pixelByte c x' y') : (x, y) = (x', y') := by
  unfold pixelByte at h
  rw [Prod.mk.injEq]
  omega

theorem pixelByte_mod_four {c : Config} (hc : c.fbBaseOk = true) (x y : Nat) : pixelByte c x y % 4 = 0 := by
  obtain ⟨halign, -⟩ := (fbBaseOk_iff c).1 hc
  unfold pixelByte
  omega

theorem pixelByte_le {c : Config} {x y : Nat} (hx : x < 512) (hy : y < 512) :
    pixelByte c x y + 4 ≤ u32 c.fbBase + 0x100000 := by
  unfold pixelByte
  omega

/-- Settles O58: pixel addresses are multiples of 4, so two different ones are a word apart. -/
theorem pixelWordsAreDistinctAndInside : Obligations.PixelWordsAreDistinctAndInside := by
  intro c hc x y hx hy
  have hfb := fbBaseOk_of_wellFormed hc
  have halign := pixelByte_mod_four hfb
  rw [pixelAddr_toNat hfb hx hy]
  refine ⟨rfl, halign x y, pixelByte_le hx hy, fun x' y' hx' hy' hne => ?_⟩
  rw [pixelAddr_toNat hfb hx' hy']
  have hdiff : pixelByte c x y ≠ pixelByte c x' y' := fun h => hne (pixel_eq_of_pixelByte_eq hx hx' h)
  have h := halign x y
  have h' := halign x' y'
  omega

/-! ### One pixel (R173, R176) -/

theorem pixelWrite_of_outside {x y : Word}
    (h : ¬ ((0 ≤ x.toInt ∧ x.toInt < 512) ∧ 0 ≤ y.toInt ∧ y.toInt < 512)) (p : Platform) (v : Word) (m : Memory) :
    pixelWrite p x y v m = ⟨m, none⟩ :=
  if_neg fun hin => h ((inBounds_iff x y).1 hin)

theorem pixelWrite_of_inside {vx vy : Word} {x y : Nat} (hx : x < 512) (hy : y < 512) (hvx : vx.toInt = x)
    (hvy : vy.toInt = y) (p : Platform) (v : Word) (m : Memory) :
    pixelWrite p vx vy v m = memWrite p (pixelAddr p.cfg x y) v m := by
  have hin : inBounds vx vy = true := (inBounds_iff vx vy).2 (by unfold s32; omega)
  rw [pixelWrite, if_pos hin, s32, s32, hvx, hvy, Int.toNat_natCast, Int.toNat_natCast]

/-- Settles O52: in bounds PIXEL is one use of the memory port, at the pixel's word. -/
theorem pixelWritesItsWordOrNothing : Obligations.PixelWritesItsWordOrNothing := by
  refine fun rs rt rd s => ⟨encodedAt_index _ rfl, fun hout => ?_, fun hc x y hx hy hvx hvy => ?_⟩
  · rw [exec, execPixel, pixelWrite_of_outside hout]
    rfl
  · have hfb := fbBaseOk_of_wellFormed hc
    have haddr := pixelAddr_toNat hfb hx hy
    rw [exec, execPixel, pixelWrite_of_inside hx hy hvx hvy, ← haddr]
    refine ⟨fun hv => ?_, fun hv => ?_⟩
    · rw [memWrite_of_valid hv]
      exact ⟨_, rfl, rfl, fun hm k => read_writeWord_byte hm (validWord_bounds hv).2 _, fun a => read_writeWord_ne s.mem _⟩
    · rw [memWrite_of_invalid (ne_true_of_eq_false hv), u32, BitVec.ofNat_toNat, BitVec.setWidth_eq]
      rfl

/-! ### The drawing instructions (R175) -/

/-- A drawing instruction with no pixel in bounds only completes (R173). -/
theorem exec_of_no_writes {i : Instr} (hi : i.draws = true) {s : State} (h : wordWritesOf i s = []) :
    exec i s = .next { s with outcome := some .next } := by
  rw [exec_draws hi, h]
  rfl

/-- Where the platform can draw, every word an instruction asks to write is valid (R41, R57). -/
theorem validWord_of_mem_wordWritesOf {i : Instr} {s : State} (hp : s.plat.CanDraw) {w : Word × Word}
    (hw : w ∈ wordWritesOf i s) : validWord s.plat (u32 w.1) = true := by
  obtain ⟨x, y, hx, hy, hword⟩ := mem_gridWrites.1 (mem_gridWrites_of_mem_wordWritesOf hw)
  rw [hword]
  exact validWord_pixel hp hx hy

/-- Where the platform can draw, a drawing instruction performs all its word writes and completes (R175). -/
theorem exec_of_canDraw {i : Instr} (hi : i.draws = true) {s : State} (hp : s.plat.CanDraw) :
    exec i s = .next { s with mem := s.mem.writeWords (wordWritesOf i s), outcome := some .next } := by
  rw [exec_draws hi]
  exact finishDraw_complete fun w => validWord_of_mem_wordWritesOf hp

/-- A byte lies in the word of pixel `(x, y)` exactly when it is one of the pixel's four bytes. -/
theorem mem_pixelWord_iff {c : Config} (hc : c.fbBaseOk = true) {x y : Nat} (hx : x < 512) (hy : y < 512) (a : Nat) :
    (u32 (pixelAddr c x y) ≤ a ∧ a < u32 (pixelAddr c x y) + 4) ↔ ∃ k, k < 4 ∧ a = pixelByte c x y + k := by
  rw [pixelAddr_toNat hc hx hy]
  constructor
  · exact fun h => ⟨a - pixelByte c x y, by omega, by omega⟩
  · rintro ⟨k, hk, rfl⟩
    omega

/-- A drawing instruction whose word writes are those of the pixels of `inside`, all in one colour, paints these pixels. -/
theorem exec_paintsPixels {i : Instr} (hi : i.draws = true) {s : State} (hp : s.plat.CanDraw) (hm : s.mem.wf = true)
    {inside : Nat → Nat → Prop} {colour : Word}
    (hws : ∀ w, w ∈ wordWritesOf i s ↔
      ∃ x y, x < 512 ∧ y < 512 ∧ inside x y ∧ w = (pixelAddr s.plat.cfg x y, colour)) :
    ∃ t, exec i s = .next t ∧ PaintedPixels s t inside colour := by
  have hfb := fbBaseOk_of_wellFormed hp.1
  have hconst : ∀ w ∈ wordWritesOf i s, validWord s.plat (u32 w.1) = true ∧ w.2 = colour := by
    intro w hw
    obtain ⟨x, y, -, -, -, hword⟩ := (hws w).1 hw
    exact ⟨validWord_of_mem_wordWritesOf hp hw, congrArg Prod.snd hword⟩
  have hread := read_writeWords_const hconst hm
  refine ⟨_, exec_of_canDraw hi hp, fun _ => rfl, rfl, ⟨rfl, rfl, rfl⟩, rfl, fun x y hx hy hin k hk => ?_,
    fun a ha => ?_⟩
  · have hbyte : (pixelByte s.plat.cfg x y + k) % 4 = k := by
      have := pixelByte_mod_four hfb x y
      omega
    rw [hread, if_pos ⟨_, (hws _).2 ⟨x, y, hx, hy, hin, rfl⟩, (mem_pixelWord_iff hfb hx hy _).2 ⟨k, hk, rfl⟩⟩, hbyte]
  · rw [hread, if_neg]
    rintro ⟨w, hw, hword⟩
    obtain ⟨x, y, hx, hy, hin, rfl⟩ := (hws w).1 hw
    obtain ⟨k, hk, hak⟩ := (mem_pixelWord_iff hfb hx hy a).1 hword
    exact ha x y k hx hy hin hk hak

/-! ### The fills (R177 to R179) -/

/-- Settles O53: the word writes of the grid are those of all its pixels. -/
theorem fillallPaintsEveryPixel : Obligations.FillallPaintsEveryPixel := by
  refine fun rs s => ⟨encodedAt_index _ rfl, exec_paints rfl s, fun hp hm => exec_paintsPixels rfl hp hm fun w => ?_⟩
  simp only [wordWritesOf, mem_gridWrites, true_and]

/-- The 512 writes along the line that `v` picks, a row or a column, or none for a `v` outside the grid. -/
theorem mem_lineWrites {v : Word} {write : Nat → Nat → Word × Word} {w : Word × Word} :
    (w ∈ if 0 ≤ s32 v ∧ s32 v < 512 then (List.range 512).map (write (s32 v).toNat) else []) ↔
      ∃ i j : Nat, i < 512 ∧ j < 512 ∧ v.toInt = i ∧ w = write i j := by
  by_cases hv : 0 ≤ s32 v ∧ s32 v < 512
  · rw [if_pos hv, List.mem_map]
    constructor
    · rintro ⟨j, hj, rfl⟩
      exact ⟨_, j, s32_toNat_lt hv.2, List.mem_range.1 hj, (Int.toNat_of_nonneg hv.1).symm, rfl⟩
    · rintro ⟨i, j, -, hj, hvi, rfl⟩
      exact ⟨j, List.mem_range.2 hj, by rw [s32, hvi, Int.toNat_natCast]⟩
  · rw [if_neg hv]
    refine iff_of_false List.not_mem_nil ?_
    rintro ⟨i, j, hi, -, hvi, -⟩
    unfold s32 at hv
    omega

/-- The writes of a row fill are the pixels of the row. -/
theorem mem_rowWrites {c : Config} {v colour : Word} {w : Word × Word} :
    w ∈ rowWrites c v colour ↔ ∃ x y : Nat, x < 512 ∧ y < 512 ∧ v.toInt = y ∧ w = (pixelAddr c x y, colour) := by
  refine (mem_lineWrites (write := fun y x => (pixelAddr c x y, colour))).trans ?_
  exact ⟨fun ⟨y, x, hy, hx, h⟩ => ⟨x, y, hx, hy, h⟩, fun ⟨x, y, hx, hy, h⟩ => ⟨y, x, hy, hx, h⟩⟩

/-- Settles O54: the word writes of a row are those of its pixels. -/
theorem fillrowPaintsItsRow : Obligations.FillrowPaintsItsRow :=
  fun _ _ s => ⟨encodedAt_index _ rfl, exec_paints rfl s,
    fun hp hm => exec_paintsPixels rfl hp hm fun _ => mem_rowWrites,
    fun hout => exec_of_no_writes rfl (if_neg hout)⟩

/-- The writes of a column fill are the pixels of the column. -/
theorem mem_colWrites {c : Config} {v colour : Word} {w : Word × Word} :
    w ∈ colWrites c v colour ↔ ∃ x y : Nat, x < 512 ∧ y < 512 ∧ v.toInt = x ∧ w = (pixelAddr c x y, colour) :=
  mem_lineWrites (write := fun x y => (pixelAddr c x y, colour))

/-- Settles O55: the word writes of a column are those of its pixels. -/
theorem fillcolPaintsItsColumn : Obligations.FillcolPaintsItsColumn :=
  fun _ _ s => ⟨encodedAt_index _ rfl, exec_paints rfl s,
    fun hp hm => exec_paintsPixels rfl hp hm fun _ => mem_colWrites,
    fun hout => exec_of_no_writes rfl (if_neg hout)⟩

/-! ### The sprite (R180) -/

/-- Settles O57: the sprite performs its word writes as every drawing instruction does. -/
theorem spriteRowIsReducedModulo : Obligations.SpriteRowIsReducedModulo :=
  fun rs s => ⟨exec_paints (i := .sprite rs) rfl s, fun hp =>
    ⟨_, exec_of_canDraw rfl hp, rfl, fun _ ha => read_writeWords_ne ha s.mem⟩⟩

/-- Settles O56: where the rows fit, the reduction of `spriteRowIsReducedModulo` changes nothing. -/
theorem spriteDrawsItsTableClipped : Obligations.SpriteDrawsItsTableClipped := by
  refine fun rs s => ⟨encodedAt_index _ rfl, fun hfit => ?_⟩
  rw [← spriteWrites_eq_spritePixels hfit]
  exact spriteRowIsReducedModulo rs s

end Sys2Proof.Machine
end

section
/-! Proofs for `60_exceptions.md`: how each instruction's transaction can end, what a failed one has done before it failed,
and how the driver stops. -/

namespace Sys2Proof.Machine

open Sys2Proof

/-! ### The end of a transaction (R200) -/

theorem exec_arith_outcome {i : Instr} {s t : State} (h : exec i s = .next t) (hi : i.isArith = true) :
    t.outcome = some .next := by
  obtain ⟨u, hu, -, ho⟩ := exec_arith hi s
  cases h.symm.trans hu
  exact ho

/-- A branch transfers to its target exactly when its condition holds, and completes otherwise (R140, R141). -/
theorem branchIf_outcome {taken : Bool} {p : Prop} (hp : taken = true ↔ p) {imm : Half} {s t : State}
    (h : branchIf taken imm s = .next t) :
    (p ∧ t.outcome = some (.transfer (s.pc + 4#32 + 4#32 * imm.signExtend 32))) ∨ (¬ p ∧ t.outcome = some .next) := by
  cases taken with
  | true => cases h; exact .inl ⟨hp.1 rfl, by rw [requestTransfer_outcome, branchTarget_eq]⟩
  | false => cases h; exact .inr ⟨mt hp.2 nofun, rfl⟩

/-- A drawing completes, or stops at the first of its word writes that is to an invalid word (R175). -/
theorem exec_draws_outcome {i : Instr} (hi : i.draws = true) {s t : State} (h : exec i s = .next t) :
    t.outcome = some .next ∨ ∃ bad, t.outcome = some (.fail .addressError bad) ∧
      validWord s.plat (u32 bad) = false ∧ StoppedDrawing i s t bad := by
  obtain ⟨u, hu, -, hout, -, done, rest, hws, hvalid, hmem, hend⟩ := exec_paints hi s
  cases h.symm.trans hu
  rcases hend with ⟨-, hnext⟩ | ⟨w, tail, rfl, hw, hfail⟩
  · exact .inl hnext
  · exact .inr ⟨w.1, hfail, hw, done, w, tail, hws, hvalid, hw, rfl, hmem, hout⟩

/-- The printing of an instruction's string completes, or stops at the first invalid byte (R156). -/
theorem printString_outcome {i : Instr} {a : Word} {s t : State} (hi : stringStartOf i s = some a)
    (h : printString a s = .next t) :
    t.outcome = some .next ∨ ∃ bad, t.outcome = some (.fail .addressError bad) ∧
      s.memRead bad = none ∧ StoppedPrinting i s t bad := by
  rcases printString_cases a s with ⟨bs, -, hp⟩ | ⟨bs, bad, hbroken, hp⟩ | ⟨hp, -⟩ <;> cases h.symm.trans hp
  · exact .inl rfl
  · exact .inr ⟨bad, rfl, memRead_of_broken hbroken, a, bs, hi, hbroken, rfl, rfl⟩

theorem execJmp_cases {ref : Half} {s t : State} (h : execJmp ref s = .next t) :
    (∃ a, lookupKey ref s.plat.symTab = some a ∧ t = s.requestTransfer a) ∨
      (lookupKey ref s.plat.symTab = none ∧ t = s.raise .unresolvedSymbol (ref.zeroExtend 32)) := by
  cases hr : s.symResolve ref with
  | some a => cases h.symm.trans (execJmp_of_symResolve_some hr); exact .inl ⟨a, hr, rfl⟩
  | none => cases h.symm.trans (execJmp_of_symResolve_none hr); exact .inr ⟨hr, rfl⟩

theorem execPstr_cases {ref : Half} {s t : State} (h : execPstr ref s = .next t) :
    (∃ a, stringStartOf (.pstr ref) s = some a ∧ printString a s = .next t) ∨
      (lookupKey ref s.plat.symTab = none ∧ t = s.raise .unresolvedSymbol (ref.zeroExtend 32)) := by
  cases hr : s.symResolve ref with
  | some a => exact .inl ⟨a, hr, (execPstr_of_symResolve_some hr).symm.trans h⟩
  | none => cases h.symm.trans (execPstr_of_symResolve_none hr); exact .inr ⟨hr, rfl⟩

/-- The services in the order they are tried (R158). -/
theorem execSyscall_cases {s t : State} (h : execSyscall s = .next t) :
    ((s.readReg s.plat.cfg.sysSelReg).toInt = s.plat.cfg.svcPrintInt ∧ t.outcome = some .next) ∨
      ((s.readReg s.plat.cfg.sysSelReg).toInt = s.plat.cfg.svcPrintStr ∧
        ∃ a, stringStartOf .syscall s = some a ∧ printString a s = .next t) ∨
      ((s.readReg s.plat.cfg.sysSelReg).toInt ≠ s.plat.cfg.svcPrintInt ∧
        (s.readReg s.plat.cfg.sysSelReg).toInt ≠ s.plat.cfg.svcPrintStr ∧
        (((s.readReg s.plat.cfg.sysSelReg).toInt = s.plat.cfg.svcExit ∧ t = s.terminate) ∨
          ((s.readReg s.plat.cfg.sysSelReg).toInt ≠ s.plat.cfg.svcExit ∧
            t = s.raise .unsupportedOperation (s.readReg s.plat.cfg.sysSelReg)))) := by
  by_cases hint : (s.readReg s.plat.cfg.sysSelReg).toInt = s.plat.cfg.svcPrintInt
  · cases h.symm.trans (execSyscall_of_printInt hint)
    exact .inl ⟨hint, rfl⟩
  by_cases hstr : (s.readReg s.plat.cfg.sysSelReg).toInt = s.plat.cfg.svcPrintStr
  · exact .inr (.inl ⟨hstr, _, if_pos ⟨hint, hstr⟩, (execSyscall_of_printStr hint hstr).symm.trans h⟩)
  by_cases hexit : (s.readReg s.plat.cfg.sysSelReg).toInt = s.plat.cfg.svcExit
  · cases h.symm.trans (execSyscall_of_exit hint hstr hexit)
    exact .inr (.inr ⟨hint, hstr, .inl ⟨hexit, rfl⟩⟩)
  · cases h.symm.trans (execSyscall_of_unsupported hint hstr hexit)
    exact .inr (.inr ⟨hint, hstr, .inr ⟨hexit, rfl⟩⟩)

/-- How a transaction ends: without failing, or as a drawing or a printing that stopped at an invalid address, or with a
failure raised in place of every other effect (R200, R206, R208). -/
inductive Ending (i : Instr) (s t : State) : Prop where
  | succeeded {o : DispatchOutcome} (ho : t.outcome = some o) (hne : ∀ kind info, o ≠ .fail kind info)
  | stopped {info : Word} (ho : t.outcome = some (.fail .addressError info))
      (h : StoppedDrawing i s t info ∨ StoppedPrinting i s t info)
  | raised {kind : FailKind} {info : Word} (hkind : kind = .unsupportedOperation ∨ kind = .unresolvedSymbol)
      (ht : t = s.raise kind info)

theorem printString_ending {i : Instr} {a : Word} {s t : State} (hi : stringStartOf i s = some a)
    (h : printString a s = .next t) : Ending i s t := by
  rcases printString_outcome hi h with ho | ⟨bad, ho, -, hstop⟩
  · exact .succeeded ho nofun
  · exact .stopped ho (.inr hstop)

theorem exec_ending {i : Instr} {s t : State} (h : exec i s = .next t) : Ending i s t := by
  cases i with
  | addi | subi | maxmag | avg | xor | cmp3 | clamp | modnorm | sgnc | bidx | sumbank | drain | lui | ori =>
    exact .succeeded (exec_arith_outcome h rfl) nofun
  | bpos rs imm | bneg rs imm | beq rs rt imm =>
    rcases branchIf_outcome Iff.rfl h with ⟨-, ho⟩ | ⟨-, ho⟩ <;> exact .succeeded ho nofun
  | jmp ref =>
    rcases execJmp_cases h with ⟨a, -, rfl⟩ | ⟨-, ht⟩
    · exact .succeeded rfl nofun
    · exact .raised (.inr rfl) ht
  | pstr ref =>
    rcases execPstr_cases h with ⟨a, ha, hp⟩ | ⟨-, ht⟩
    · exact printString_ending ha hp
    · exact .raised (.inr rfl) ht
  | syscall =>
    rcases execSyscall_cases h with ⟨-, ho⟩ | ⟨-, a, ha, hp⟩ | ⟨-, -, ⟨-, rfl⟩ | ⟨-, ht⟩⟩
    · exact .succeeded ho nofun
    · exact printString_ending ha hp
    · exact .succeeded rfl nofun
    · exact .raised (.inl rfl) ht
  | pixel | fillall | fillrow | fillcol | sprite =>
    rcases exec_draws_outcome rfl h with ho | ⟨bad, ho, -, hstop⟩
    · exact .succeeded ho nofun
    · exact .stopped ho (.inl hstop)

/-- NoMatch is the matcher's report and FetchError the driver's; no transaction reports either (R78, R205). -/
theorem dispatch_outcome {w : Word} {s t : State} (h : dispatch w s = .next t) : ∃ o, t.outcome = some o ∧
    (∀ info, o = .fail .noMatch info → info = w ∧ ∀ e ∈ catalog, w &&& e.mask ≠ e.matchBits) ∧
    ∀ info, o ≠ .fail .fetchError info := by
  obtain ⟨hd, hno, -⟩ := unmatchedWordFailsWithNoMatch w
  rcases hd with ⟨i, hd⟩ | hd
  · rcases exec_ending ((dispatch_of_ok hd s).symm.trans h) with ⟨ho, hne⟩ | ⟨ho, -⟩ | ⟨rfl | rfl, rfl⟩
    · exact ⟨_, ho, fun info he => absurd he (hne _ info), fun info => hne _ info⟩
    · exact ⟨_, ho, nofun, nofun⟩
    · exact ⟨_, rfl, nofun, nofun⟩
    · exact ⟨_, rfl, nofun, nofun⟩
  · cases h.symm.trans (dispatch_of_noMatch hd s)
    exact ⟨_, rfl, fun info he => ⟨by cases he; rfl, hno.1 hd⟩, nofun⟩

/-! ### How the driver stops (R204, R205, R234) -/

/-- A machine that is not Running takes no step (R34). -/
theorem step_ne_next_of_stopped {t : State} (ht : t.status ≠ .running) (u : State) : step t ≠ .next u :=
  fun h => ht (step_next_cases h).1

theorem fetch_eq_none_iff (s : State) :
    s.fetch = none ↔ u32 s.pc % 4 ≠ 0 ∨ lookupKey s.pc s.plat.imem = none := by
  rw [State.fetch, ite_eq_right_iff, Decidable.imp_iff_not_or]

/-- A running machine that cannot fetch stops there (R205). -/
theorem step_of_fetch_none {s : State} (hs : s.status = .running) (hc : s.plat.cfg.wellFormed = true)
    (hf : s.fetch = none) : step s = .next (s.stopFailed .fetchError s.pc) := by
  simp only [step, hs, if_pos hc, hf]

/-- A running machine applies the outcome of the transaction it dispatches (R234). -/
theorem step_of_dispatch {s t : State} {iw : Word} (hs : s.status = .running) (hc : s.plat.cfg.wellFormed = true)
    (hf : s.fetch = some iw) (hd : dispatch iw s = .next t) : step s = .next t.applyOutcome := by
  simp only [step, hs, if_pos hc, hf, hd]

/-- The driver's part of a failure (R206). -/
theorem applyOutcome_of_fail {u : State} {kind : FailKind} {info : Word} (ho : u.outcome = some (.fail kind info)) :
    u.applyOutcome = u.stopFailed kind info := by
  rw [State.applyOutcome, ho]

/-- A step that fails with FetchError could not fetch, and reports the pc (R205). -/
theorem fetchError_of_step {s t : State} {info : Word} (h : step s = .next t)
    (ht : t.status = .failed .fetchError info) :
    info = s.pc ∧ (u32 s.pc % 4 ≠ 0 ∨ lookupKey s.pc s.plat.imem = none) := by
  obtain ⟨hs, ⟨hf, rfl⟩ | ⟨iw, u, -, hd, ⟨-, hstatus, -⟩, rfl⟩⟩ := step_next_dispatch h
  · cases ht
    exact ⟨rfl, (fetch_eq_none_iff s).1 hf⟩
  · obtain ⟨o, ho, -, hne⟩ := dispatch_outcome hd
    cases ho.symm.trans ((applyOutcome_failed_iff (hstatus.trans hs) _ _).1 ht)
    exact absurd rfl (hne info)

/-- Settles O15: each instruction ends in the outcomes of its family, and what the matcher and the driver report is
`dispatch_outcome`. -/
theorem eachOutcomeComesFromItsInstructions : Obligations.EachOutcomeComesFromItsInstructions := by
  refine ⟨fun i s t h => ?_, fun _ _ _ => dispatch_outcome, fun _ _ _ => fetchError_of_step, rfl, fun _ => ⟨rfl, rfl⟩,
    rfl, rfl, rfl, fun _ _ => ⟨rfl, rfl⟩, rfl, rfl, rfl, rfl, rfl⟩
  cases i with
  | addi | subi | maxmag | avg | xor | cmp3 | clamp | modnorm | sgnc | bidx | sumbank | drain | lui | ori =>
    exact ⟨_, exec_arith_outcome h rfl, nofun, nofun, nofun, nofun, nofun⟩
  | bpos rs imm =>
    rcases branchIf_outcome (isPositive_iff _) h with ⟨htaken, ho⟩ | ⟨htaken, ho⟩
    · exact ⟨_, ho, .inl ⟨imm, rfl, .inl ⟨rs, rfl, htaken⟩⟩⟩
    · exact ⟨_, ho, nofun, fun _ _ hi => by cases hi; exact htaken, nofun, nofun, nofun⟩
  | bneg rs imm =>
    rcases branchIf_outcome (isNegative_iff _) h with ⟨htaken, ho⟩ | ⟨htaken, ho⟩
    · exact ⟨_, ho, .inl ⟨imm, rfl, .inr (.inl ⟨rs, rfl, htaken⟩)⟩⟩
    · exact ⟨_, ho, nofun, nofun, fun _ _ hi => by cases hi; exact htaken, nofun, nofun⟩
  | beq rs rt imm =>
    rcases branchIf_outcome (isEqual_iff _ _) h with ⟨htaken, ho⟩ | ⟨htaken, ho⟩
    · exact ⟨_, ho, .inl ⟨imm, rfl, .inr (.inr ⟨rs, rt, rfl, htaken⟩)⟩⟩
    · exact ⟨_, ho, nofun, nofun, nofun, fun _ _ _ hi => by cases hi; exact htaken, nofun⟩
  | jmp ref =>
    rcases execJmp_cases h with ⟨a, ha, rfl⟩ | ⟨hnone, rfl⟩
    · exact ⟨_, rfl, .inr ⟨ref, rfl, ha⟩⟩
    · exact ⟨_, rfl, ref, .inl rfl, rfl, hnone⟩
  | pstr ref =>
    rcases execPstr_cases h with ⟨a, ha, hp⟩ | ⟨hnone, rfl⟩
    · rcases printString_outcome ha hp with ho | ⟨bad, ho, hbad, hstop⟩
      · exact ⟨_, ho, nofun, nofun, nofun, nofun, nofun⟩
      · exact ⟨_, ho, .inl ⟨.inl ⟨ref, rfl⟩, hbad, hstop⟩⟩
    · exact ⟨_, rfl, ref, .inr rfl, rfl, hnone⟩
  | syscall =>
    rcases execSyscall_cases h with ⟨hint, ho⟩ | ⟨hstr, a, ha, hp⟩ | ⟨hint, hstr, ⟨hexit, rfl⟩ | ⟨hexit, rfl⟩⟩
    · exact ⟨_, ho, nofun, nofun, nofun, nofun, fun _ => .inl hint⟩
    · rcases printString_outcome ha hp with ho | ⟨bad, ho, hbad, hstop⟩
      · exact ⟨_, ho, nofun, nofun, nofun, nofun, fun _ => .inr hstr⟩
      · exact ⟨_, ho, .inl ⟨.inr ⟨rfl, hstr⟩, hbad, hstop⟩⟩
    · exact ⟨_, rfl, rfl, hexit, hint, hstr⟩
    · exact ⟨_, rfl, rfl, rfl, hint, hstr, hexit⟩
  | pixel | fillall | fillrow | fillcol | sprite =>
    rcases exec_draws_outcome rfl h with ho | ⟨bad, ho, hbad, hstop⟩
    · exact ⟨_, ho, nofun, nofun, nofun, nofun, nofun⟩
    · exact ⟨_, ho, .inr ⟨rfl, hbad, fun _ _ => hstop, fun _ => hstop⟩⟩

/-- Settles O24: a failed fetch and an unmatched word have no effect, and a failed transaction has those its `Ending`
says. -/
theorem failureLeavesEarlierEffectsOnly : Obligations.FailureLeavesEarlierEffectsOnly := by
  intro s t h kind info ht
  have hstop := step_ne_next_of_stopped (t := t) (by simp [ht])
  obtain ⟨hs, -, ⟨-, rfl⟩ | ⟨iw, hf, ⟨w, -, rfl⟩ | ⟨i, u, hd, hx, rfl⟩⟩⟩ := step_next_cases h
  · cases ht
    exact ⟨fun _ => rfl, rfl, rfl, hstop, fun _ => ⟨rfl, rfl⟩, nofun⟩
  · cases ht
    exact ⟨fun _ => rfl, rfl, rfl, hstop, fun _ => ⟨rfl, rfl⟩, nofun⟩
  · obtain ⟨⟨hpc, hstatus, hplat⟩, hregs, -, -, -, -⟩ := exec_effects hx
    have ho := (applyOutcome_failed_iff (hstatus.trans hs) kind info).1 ht
    have harith : ¬ i.isArith = true := fun hi => by cases ho.symm.trans (exec_arith_outcome hx hi)
    rw [applyOutcome_of_fail ho] at hstop ⊢
    refine ⟨readReg_congr (hregs (by simpa using harith)) hplat, hpc, hplat, hstop, ?_⟩
    rcases exec_ending hx with ⟨ho', hne⟩ | ⟨ho', hstopped⟩ | ⟨rfl | rfl, rfl⟩
    · cases ho.symm.trans ho'
      exact absurd rfl (hne kind info)
    · cases ho.symm.trans ho'
      exact ⟨fun hne => absurd rfl hne, fun _ => ⟨iw, i, hf, hd, hstopped⟩⟩
    · cases ho; exact ⟨fun _ => ⟨rfl, rfl⟩, nofun⟩
    · cases ho; exact ⟨fun _ => ⟨rfl, rfl⟩, nofun⟩

/-- Settles O49: the word is SYSCALL's, whose third service terminates. -/
theorem terminateStopsWithoutFailing : Obligations.TerminateStopsWithoutFailing := by
  intro s hs hc hpc hword hexit hint hstr
  have hf : s.fetch = some 0x0000000C#32 := (if_pos hpc).trans hword
  have hd : decode 0x0000000C#32 = .ok .syscall := encodeThenDecodeIsIdentity .syscall
  have hx : exec .syscall s = .next s.terminate := execSyscall_of_exit (hexit ▸ hint) (hexit ▸ hstr) hexit
  exact ⟨_, step_of_dispatch hs hc hf ((dispatch_of_ok hd s).trans hx), rfl, nofun, step_ne_next_of_stopped nofun⟩

/-- Settles O11: a misaligned pc and one that `IMem` does not hold are the two failures of the fetch. -/
theorem fetchFailureStopsTheDriver : Obligations.FetchFailureStopsTheDriver :=
  fun s hs hc hpc => step_of_fetch_none hs hc ((fetch_eq_none_iff s).2 hpc)

end Sys2Proof.Machine
end

section
/-! Proofs for `70_reset_and_hazards.md`: power-up, the driver's step by the outcome it applies, and the run as the
repetition of that step. -/

namespace Sys2Proof.Machine

open Sys2Proof

/-! ### Power-up (R230) -/

/-- A catalog that the check passes launches (R79, R230). -/
theorem powerUp_of_pass {cat : List Entry} (h : checkCatalog cat = none) (p : Platform) (x : Vector Word 32)
    (m : Memory) : powerUp cat p x m = .ok (State.launch p x m) := by
  rw [powerUp, h]

/-- Settles O8: the two answers of the check, and the catalog of R80, which passes. -/
theorem powerUpChecksThenLaunches : Obligations.PowerUpChecksThenLaunches :=
  ⟨catalog_constants, fun _ p x m _ h => powerUp_of_defect h p x m, fun _ p x m h => powerUp_of_pass h p x m,
    fun p x m => ⟨powerUp_of_pass checkCatalog_catalog p x m, rfl⟩⟩

/-! ### The driver's step (R234) -/

/-- The word of an aligned pc in `IMem` is fetched (R234 (1)). -/
theorem fetch_of_lookupKey {s : State} {iw : Word} (hpc : u32 s.pc % 4 = 0)
    (hword : lookupKey s.pc s.plat.imem = some iw) : s.fetch = some iw :=
  (if_pos hpc).trans hword

/-- A running machine stops with the fault of the transaction it dispatches (U8). -/
theorem step_of_dispatch_fault {s : State} {iw : Word} {f : Fault} (hs : s.status = .running)
    (hc : s.plat.cfg.wellFormed = true) (hf : s.fetch = some iw) (hd : dispatch iw s = .fault f) :
    step s = .fault f := by
  simp only [step, hs, if_pos hc, hf, hd]

/-- Settles O9: the dispatch of a word that decodes is its instruction's transaction, which is never refused. -/
theorem stepRunsTheDecodedInstruction : Obligations.StepRunsTheDecodedInstruction := by
  intro s iw i hs hc hpc hword hd
  have hf : s.fetch = some iw := fetch_of_lookupKey hpc hword
  have hdispatch : dispatch iw s = exec i s := dispatch_of_ok hd s
  cases hx : exec i s with
  | next t => exact step_of_dispatch hs hc hf (hdispatch.trans hx)
  | fault f => exact step_of_dispatch_fault hs hc hf (hdispatch.trans hx)
  | refused r => exact absurd hx (exec_ne_refused i s r)

section Applied
variable {u : State}

theorem applyOutcome_of_next (ho : u.outcome = some .next) :
    u.applyOutcome = { u with pc := u.pc + 4#32, outcome := none } := by
  rw [State.applyOutcome, ho, wrap32_u32_four]

theorem applyOutcome_of_transfer {a : Word} (ho : u.outcome = some (.transfer a)) :
    u.applyOutcome = { u with pc := a, outcome := none } := by
  rw [State.applyOutcome, ho]

theorem applyOutcome_of_terminate (ho : u.outcome = some .terminate) :
    u.applyOutcome = { u with status := .terminated, outcome := none } := by
  rw [State.applyOutcome, ho]

/-- The driver keeps a running machine Running on `Next` and on `Transfer` (R34, R235). -/
theorem applyOutcome_running_iff {o : DispatchOutcome} (hu : u.status = .running) (ho : u.outcome = some o) :
    u.applyOutcome.status = .running ↔ u.outcome = some .next ∨ ∃ a, u.outcome = some (.transfer a) := by
  cases o with
  | next => simp [applyOutcome_of_next ho, hu, ho]
  | transfer a => simp [applyOutcome_of_transfer ho, hu, ho]
  | terminate => simp [applyOutcome_of_terminate ho, ho]
  | fail kind info => simp [applyOutcome_of_fail ho, ho]

end Applied

/-- A dispatched word leaves the driver's fields alone, matched or not (R23, R36, R78). -/
theorem dispatch_sameDriver {iw : Word} {s t : State} (h : dispatch iw s = .next t) : SameDriver s t := by
  rcases hd : decode iw with ⟨w⟩ | i
  · cases h.symm.trans (dispatch_of_noMatch hd s)
    exact ⟨rfl, rfl, rfl⟩
  · exact (exec_effects ((dispatch_of_ok hd s).symm.trans h)).driver

/-- Settles O10: the failed fetch, and the outcome of the transaction applied by its kind. -/
theorem driverStepFollowsTheRule : Obligations.DriverStepFollowsTheRule := by
  refine ⟨fun s => step_ne_next_of_stopped, fun s hs hc => ⟨fetchFailureStopsTheDriver s hs hc, ?_⟩⟩
  intro iw t hpc hword hd
  have hstep : step s = .next t.applyOutcome := step_of_dispatch hs hc (fetch_of_lookupKey hpc hword) hd
  have hsame : t.pc = s.pc := (dispatch_sameDriver hd).1
  refine ⟨hsame, fun ho => ?_, fun a ho => ?_, fun ho => ?_, fun kind info ho => ?_⟩
  · rw [hstep, applyOutcome_of_next ho, hsame]
  · rw [hstep, applyOutcome_of_transfer ho]
  · rw [hstep, applyOutcome_of_terminate ho]
  · rw [hstep, applyOutcome_of_fail ho, State.stopFailed]

/-! ### Runs (R235) -/

theorem status_ne_running_iff (s : State) :
    s.status ≠ .running ↔ s.status = .terminated ∨ ∃ kind info, s.status = .failed kind info := by
  cases s.status <;> simp

theorem completedStep_eq_one_iff (t : State) : t.completedStep = 1 ↔ t.status = .running := by
  simp [State.completedStep]

theorem completedStep_eq_zero_iff (t : State) : t.completedStep = 0 ↔ t.status ≠ .running := by
  simp [State.completedStep]

theorem RunsTo.stopped {s e : State} {n : Nat} (h : RunsTo s n e) : e.status ≠ .running := by
  induction h with
  | final _ stopped => exact stopped
  | completed _ _ _ ih => exact ih

/-- Two runs from one state are both the bounded run of enough steps. -/
theorem RunsTo.unique {s e e' : State} {n n' : Nat} (h : RunsTo s n e) (h' : RunsTo s n' e') : e' = e ∧ n' = n := by
  have hr : s.runFor (n + n' + 1) = ⟨e, n, .ended⟩ := runFor_of_runsTo h (by omega)
  have hr' : s.runFor (n + n' + 1) = ⟨e', n', .ended⟩ := runFor_of_runsTo h' (by omega)
  cases hr.symm.trans hr'
  exact ⟨rfl, rfl⟩

/-- A run that ends takes a first step. -/
theorem RunsTo.step_next {s e : State} {n : Nat} (h : RunsTo s n e) : ∃ t, step s = .next t := by
  cases h with
  | final h _ => exact ⟨_, h⟩
  | completed h _ _ => exact ⟨_, h⟩

/-- A run that comes to a state that steps to itself never ends. -/
theorem not_runsTo_of_fixed {s t : State} (h : step s = .next t) (ht : step t = .next t) (n : Nat) (e : State) :
    ¬ RunsTo s n e := by
  intro hrun
  induction hrun with
  | final h' stopped =>
    cases h.symm.trans h'
    exact stopped (step_next_cases ht).1
  | completed h' _ _ ih =>
    cases h.symm.trans h'
    exact ih ht

/-- A step is completed exactly when its outcome was `Next` or `Transfer`; the step of a failed fetch is not. -/
theorem completedStep_iff_outcome {s t : State} (h : step s = .next t) :
    t.completedStep = 1 ↔ ∃ iw u, s.fetch = some iw ∧ dispatch iw s = .next u ∧
      (u.outcome = some .next ∨ ∃ a, u.outcome = some (.transfer a)) := by
  rw [completedStep_eq_one_iff]
  obtain ⟨hs, ⟨hf, rfl⟩ | ⟨iw, u, hf, hd, ⟨-, hstatus, -⟩, rfl⟩⟩ := step_next_dispatch h
  · simp [hf]
  · obtain ⟨o, ho, -⟩ := dispatch_outcome hd
    simp [applyOutcome_running_iff (hstatus.trans hs) ho, hf, hd]

/-- A branch of offset -1 at address `a` has `a` itself as its target (R141). -/
theorem branch_back_to_itself (a : Word) : a + 4#32 + 4#32 * (0xFFFF#16 : Half).signExtend 32 = a := by
  have hoffset : 4#32 + 4#32 * (0xFFFF#16 : Half).signExtend 32 = 0#32 := by decide
  rw [BitVec.add_assoc, hoffset, BitVec.add_zero]

/-- The word of `beq $8, $8, -1` transfers to its own address and does nothing else (R235). -/
theorem step_of_selfLoop {s : State} (hs : s.status = .running) (hc : s.plat.cfg.wellFormed = true)
    (hpc : u32 s.pc % 4 = 0) (hword : lookupKey s.pc s.plat.imem = some 0x1108FFFF#32) :
    step s = .next { s with outcome := none } := by
  have hd : decode 0x1108FFFF#32 = .ok (.beq 8 8 0xFFFF#16) := encodeThenDecodeIsIdentity (.beq 8 8 0xFFFF#16)
  have hx : exec (.beq 8 8 0xFFFF#16) s = .next { s with outcome := some (.transfer s.pc) } := by
    rw [(beqTransfersOnEqual 8 8 0xFFFF#16 s).2, if_pos rfl, branch_back_to_itself]
  rw [step_of_dispatch hs hc (fetch_of_lookupKey hpc hword) ((dispatch_of_ok hd s).trans hx),
    applyOutcome_of_transfer rfl]

/-- Settles O21: the run and the bounded run determine each other, a step's count follows its outcome, and neither a
step to the same state nor one that faults belongs to a run that ends. -/
theorem runRepeatsTheStepUntilItEnds : Obligations.RunRepeatsTheStepUntilItEnds := by
  refine ⟨fun s e n h => ?_, fun s e n hs => ?_, fun s t h => ?_, fun s hs hc hpc hword => ?_,
    fun s iw hs hc hf hd => ?_⟩
  · exact ⟨(status_ne_running_iff e).1 h.stopped, step_ne_next_of_stopped h.stopped, fun _ _ => h.unique⟩
  · exact ⟨fun h _ => runFor_of_runsTo h, fun h => runsTo_of_runFor hs (h (n + 1) n.lt_succ_self)⟩
  · exact ⟨completedStep_iff_outcome h, (completedStep_eq_zero_iff t).trans (status_ne_running_iff t)⟩
  · have hstep := step_of_selfLoop hs hc hpc hword
    exact ⟨hstep, not_runsTo_of_fixed hstep (step_of_selfLoop (s := { s with outcome := none }) hs hc hpc hword)⟩
  · have hne : ∀ t, step s ≠ .next t := by simp [step_of_dispatch_fault hs hc hf hd]
    exact ⟨hne, fun n e h => h.step_next.elim hne⟩

end Sys2Proof.Machine
end
